-- ==== Sys2Proof/Word.lean ====
section
/-! DEFINITION. The widths of the machine's values (spec 00_scope.md R6, R7: unsigned, bit 0 the least significant). -/

namespace Sys2Proof

/-- `u4`: a register index X or Y, a row count N, a keypad index, an operation family F (30_encoding.md R47). -/
abbrev Nibble := BitVec 4

/-- `u8`: a general register, a timer, a memory cell, an immediate NN. -/
abbrev Byte := BitVec 8

/-- `u12`: an absolute address NNN. -/
abbrev Addr := BitVec 12

/-- `u16`: an opcode, I, PC, a stack slot. -/
abbrev Word := BitVec 16

end Sys2Proof
end

