-- ==== Sys2Proof/Syntax.lean ====
section
/-! DEFINITION. The instruction set as syntax: the 34 instructions of 30_encoding.md R49, one constructor per row of
spec/opcode_table.json, in the table's order; the decoder's kinds and its bundle of fields (R48). Every operand's type has
exactly its field's width (R47), so an `Instr` holds no value that its encoding could not hold. -/

namespace Sys2Proof

/-- An instruction. `x`, `y` are register indices, `n` a row count, `nn` an immediate byte, `nnn` an absolute address.
SHR and SHL keep the `y` of their words although their rules do not read it (30_encoding.md R54). -/
inductive Instr where
  /-- 00E0 CLS: `CLS` (41_display.md R66). -/
  | cls
  /-- 00EE RET: `RET` (42_control_flow.md R69). -/
  | ret
  /-- 1NNN JP: `JP nnn` (42_control_flow.md R70). -/
  | jp (nnn : Addr)
  /-- 2NNN CALL: `CALL nnn` (42_control_flow.md R71). -/
  | call (nnn : Addr)
  /-- 3XNN SE_VX_NN: `SE Vx, nn` (42_control_flow.md R72). -/
  | seVxNn (x : Nibble) (nn : Byte)
  /-- 4XNN SNE_VX_NN: `SNE Vx, nn` (42_control_flow.md R73). -/
  | sneVxNn (x : Nibble) (nn : Byte)
  /-- 5XY0 SE_VX_VY: `SE Vx, Vy` (42_control_flow.md R74). -/
  | seVxVy (x y : Nibble)
  /-- 6XNN LD_VX_NN: `LD Vx, nn` (43_register_alu.md R79). -/
  | ldVxNn (x : Nibble) (nn : Byte)
  /-- 7XNN ADD_VX_NN: `ADD Vx, nn` (43_register_alu.md R80). -/
  | addVxNn (x : Nibble) (nn : Byte)
  /-- 8XY0 LD_VX_VY: `LD Vx, Vy` (43_register_alu.md R81). -/
  | ldVxVy (x y : Nibble)
  /-- 8XY1 OR: `OR Vx, Vy` (43_register_alu.md R82). -/
  | orVxVy (x y : Nibble)
  /-- 8XY2 AND: `AND Vx, Vy` (43_register_alu.md R83). -/
  | andVxVy (x y : Nibble)
  /-- 8XY3 XOR: `XOR Vx, Vy` (43_register_alu.md R84). -/
  | xorVxVy (x y : Nibble)
  /-- 8XY4 ADD_VX_VY: `ADD Vx, Vy` (43_register_alu.md R85). -/
  | addVxVy (x y : Nibble)
  /-- 8XY5 SUB: `SUB Vx, Vy` (43_register_alu.md R86). -/
  | subVxVy (x y : Nibble)
  /-- 8XY6 SHR: `SHR Vx, Vy` (43_register_alu.md R87). -/
  | shrVx (x y : Nibble)
  /-- 8XY7 SUBN: `SUBN Vx, Vy` (43_register_alu.md R88). -/
  | subnVxVy (x y : Nibble)
  /-- 8XYE SHL: `SHL Vx, Vy` (43_register_alu.md R89). -/
  | shlVx (x y : Nibble)
  /-- 9XY0 SNE_VX_VY: `SNE Vx, Vy` (42_control_flow.md R75). -/
  | sneVxVy (x y : Nibble)
  /-- ANNN LD_I_NNN: `LD I, nnn` (44_index_memory.md R92). -/
  | ldINnn (nnn : Addr)
  /-- BNNN JP_V0: `JP V0, nnn` (42_control_flow.md R76). -/
  | jpV0 (nnn : Addr)
  /-- CXNN RND: `RND Vx, nn` (43_register_alu.md R90). -/
  | rnd (x : Nibble) (nn : Byte)
  /-- DXYN DRW: `DRW Vx, Vy, n` (41_display.md R67). -/
  | drw (x y n : Nibble)
  /-- EX9E SKP: `SKP Vx` (45_keypad_timers.md R100). -/
  | skp (x : Nibble)
  /-- EXA1 SKNP: `SKNP Vx` (45_keypad_timers.md R101). -/
  | sknp (x : Nibble)
  /-- FX07 LD_VX_DT: `LD Vx, DT` (45_keypad_timers.md R102). -/
  | ldVxDt (x : Nibble)
  /-- FX0A LD_VX_K: `LD Vx, K` (45_keypad_timers.md R103). -/
  | ldVxK (x : Nibble)
  /-- FX15 LD_DT_VX: `LD DT, Vx` (45_keypad_timers.md R104). -/
  | ldDtVx (x : Nibble)
  /-- FX18 LD_ST_VX: `LD ST, Vx` (45_keypad_timers.md R105). -/
  | ldStVx (x : Nibble)
  /-- FX1E ADD_I_VX: `ADD I, Vx` (44_index_memory.md R93). -/
  | addIVx (x : Nibble)
  /-- FX29 LD_F_VX: `LD F, Vx` (44_index_memory.md R94). -/
  | ldFVx (x : Nibble)
  /-- FX33 LD_B_VX: `LD B, Vx` (44_index_memory.md R95). -/
  | ldBVx (x : Nibble)
  /-- FX55 LD_MI_VX: `LD [I], Vx` (44_index_memory.md R96). -/
  | ldMiVx (x : Nibble)
  /-- FX65 LD_VX_MI: `LD Vx, [I]` (44_index_memory.md R97). -/
  | ldVxMi (x : Nibble)
deriving DecidableEq, Repr

/-- What the decoder says a word is: one of the 34 mnemonics, or UNKNOWN (30_encoding.md R48). -/
inductive Kind where
  | cls
  | ret
  | jp
  | call
  | seVxNn
  | sneVxNn
  | seVxVy
  | ldVxNn
  | addVxNn
  | ldVxVy
  | orVxVy
  | andVxVy
  | xorVxVy
  | addVxVy
  | subVxVy
  | shrVx
  | subnVxVy
  | shlVx
  | sneVxVy
  | ldINnn
  | jpV0
  | rnd
  | drw
  | skp
  | sknp
  | ldVxDt
  | ldVxK
  | ldDtVx
  | ldStVx
  | addIVx
  | ldFVx
  | ldBVx
  | ldMiVx
  | ldVxMi
  | unknown
deriving DecidableEq, Repr

/-- The decoder's output for a word: its kind and every field, whatever the kind (30_encoding.md R48). -/
structure Bundle where
  kind : Kind
  x    : Nibble
  y    : Nibble
  n    : Nibble
  nn   : Byte
  nnn  : Addr
deriving DecidableEq, Repr

/-- The kind an instruction is of. -/
def Instr.kind : Instr → Kind
  | .cls => .cls
  | .ret => .ret
  | .jp _ => .jp
  | .call _ => .call
  | .seVxNn _ _ => .seVxNn
  | .sneVxNn _ _ => .sneVxNn
  | .seVxVy _ _ => .seVxVy
  | .ldVxNn _ _ => .ldVxNn
  | .addVxNn _ _ => .addVxNn
  | .ldVxVy _ _ => .ldVxVy
  | .orVxVy _ _ => .orVxVy
  | .andVxVy _ _ => .andVxVy
  | .xorVxVy _ _ => .xorVxVy
  | .addVxVy _ _ => .addVxVy
  | .subVxVy _ _ => .subVxVy
  | .shrVx _ _ => .shrVx
  | .subnVxVy _ _ => .subnVxVy
  | .shlVx _ _ => .shlVx
  | .sneVxVy _ _ => .sneVxVy
  | .ldINnn _ => .ldINnn
  | .jpV0 _ => .jpV0
  | .rnd _ _ => .rnd
  | .drw _ _ _ => .drw
  | .skp _ => .skp
  | .sknp _ => .sknp
  | .ldVxDt _ => .ldVxDt
  | .ldVxK _ => .ldVxK
  | .ldDtVx _ => .ldDtVx
  | .ldStVx _ => .ldStVx
  | .addIVx _ => .addIVx
  | .ldFVx _ => .ldFVx
  | .ldBVx _ => .ldBVx
  | .ldMiVx _ => .ldMiVx
  | .ldVxMi _ => .ldVxMi

end Sys2Proof
end

