-- ==== Sys2Proof/WellFormed.lean ====
section
/-! DEFINITION. Well-formedness of the decoder's bundle. An `Instr` needs no check: each operand's type is its field's width.
A `Bundle` holds the same bits more than once (30_encoding.md R47: NN = Y ‖ N and NNN = X ‖ Y ‖ N) and, in some kinds, bits
that the kind's pattern fixes (R49), so a bundle can be ill-formed in three ways. -/

namespace Sys2Proof

/-- NN = Y ‖ N (30_encoding.md R47). -/
def Bundle.lowByteAgrees (d : Bundle) : Bool := d.nn == d.y ++ d.n

/-- NNN = X ‖ Y ‖ N (30_encoding.md R47). -/
def Bundle.addressAgrees (d : Bundle) : Bool := d.nnn == d.x ++ d.y ++ d.n

/-- The fields hold the hex digits that the kind's pattern fixes (30_encoding.md R49). -/
def Bundle.fixedDigitsAgree (d : Bundle) : Bool :=
  match d.kind with
  | .cls => d.nnn == 0x0E0
  | .ret => d.nnn == 0x0EE
  | .seVxVy | .sneVxVy | .ldVxVy => d.n == 0x0
  | .orVxVy => d.n == 0x1
  | .andVxVy => d.n == 0x2
  | .xorVxVy => d.n == 0x3
  | .addVxVy => d.n == 0x4
  | .subVxVy => d.n == 0x5
  | .shrVx => d.n == 0x6
  | .subnVxVy => d.n == 0x7
  | .shlVx => d.n == 0xE
  | .skp => d.nn == 0x9E
  | .sknp => d.nn == 0xA1
  | .ldVxDt => d.nn == 0x07
  | .ldVxK => d.nn == 0x0A
  | .ldDtVx => d.nn == 0x15
  | .ldStVx => d.nn == 0x18
  | .addIVx => d.nn == 0x1E
  | .ldFVx => d.nn == 0x29
  | .ldBVx => d.nn == 0x33
  | .ldMiVx => d.nn == 0x55
  | .ldVxMi => d.nn == 0x65
  | .jp | .call | .seVxNn | .sneVxNn | .ldVxNn | .addVxNn | .ldINnn | .jpV0 | .rnd | .drw | .unknown => true

/-- The bundle is one that some word can decode to, as far as its redundant and fixed bits go. -/
def Bundle.wellFormed (d : Bundle) : Bool :=
  d.lowByteAgrees && d.addressAgrees && d.fixedDigitsAgree

end Sys2Proof
end

