-- ==== Sys2Proof/Decode.lean ====
section
/-! DEFINITION. The instruction_decoder (30_encoding.md R46 to R58): total on every word and on any bytes, rejecting by
name; then the encoder, written from the same patterns; then the opcode table of R49 as data. -/

namespace Sys2Proof

/-! The fields of a word (30_encoding.md R47). -/

/-- F = w[15:12], the operation family. -/
def fieldF (w : Word) : Nibble := w.extractLsb' 12 4

/-- X = w[11:8]. -/
def fieldX (w : Word) : Nibble := w.extractLsb' 8 4

/-- Y = w[7:4]. -/
def fieldY (w : Word) : Nibble := w.extractLsb' 4 4

/-- N = w[3:0]. -/
def fieldN (w : Word) : Nibble := w.extractLsb' 0 4

/-- NN = w[7:0]. -/
def fieldNN (w : Word) : Byte := w.extractLsb' 0 8

/-- NNN = w[11:0]. -/
def fieldNNN (w : Word) : Addr := w.extractLsb' 0 12

/-! The dispatch of 30_encoding.md R50 to R52: first on F, then, in six families, on the rest of the word. -/

/-- Family 0x0 is selected by the whole word (R51). -/
def kindFamily0 (w : Word) : Kind :=
  if w = 0x00E0#16 then .cls else if w = 0x00EE#16 then .ret else .unknown

/-- Family 0x8 is selected by N (R51). -/
def kindFamily8 (n : Nibble) : Kind :=
  match n.toNat with
  | 0x0 => .ldVxVy
  | 0x1 => .orVxVy
  | 0x2 => .andVxVy
  | 0x3 => .xorVxVy
  | 0x4 => .addVxVy
  | 0x5 => .subVxVy
  | 0x6 => .shrVx
  | 0x7 => .subnVxVy
  | 0xE => .shlVx
  | _ => .unknown

/-- Family 0xE is selected by NN (R51). -/
def kindFamilyE (nn : Byte) : Kind :=
  match nn.toNat with
  | 0x9E => .skp
  | 0xA1 => .sknp
  | _ => .unknown

/-- Family 0xF is selected by NN (R51). -/
def kindFamilyF (nn : Byte) : Kind :=
  match nn.toNat with
  | 0x07 => .ldVxDt
  | 0x0A => .ldVxK
  | 0x15 => .ldDtVx
  | 0x18 => .ldStVx
  | 0x1E => .addIVx
  | 0x29 => .ldFVx
  | 0x33 => .ldBVx
  | 0x55 => .ldMiVx
  | 0x65 => .ldVxMi
  | _ => .unknown

/-- The kind of a word (R50 to R53). Families 0x5 and 0x9 also test N = 0 (R52). -/
def kindOf (w : Word) : Kind :=
  match (fieldF w).toNat with
  | 0x0 => kindFamily0 w
  | 0x1 => .jp
  | 0x2 => .call
  | 0x3 => .seVxNn
  | 0x4 => .sneVxNn
  | 0x5 => if fieldN w = 0 then .seVxVy else .unknown
  | 0x6 => .ldVxNn
  | 0x7 => .addVxNn
  | 0x8 => kindFamily8 (fieldN w)
  | 0x9 => if fieldN w = 0 then .sneVxVy else .unknown
  | 0xA => .ldINnn
  | 0xB => .jpV0
  | 0xC => .rnd
  | 0xD => .drw
  | 0xE => kindFamilyE (fieldNN w)
  | 0xF => kindFamilyF (fieldNN w)
  | _ => .unknown

/-- `Decode(w)` of 30_encoding.md R48: the kind and all five fields, for every word. -/
def decodeBundle (w : Word) : Bundle :=
  ⟨kindOf w, fieldX w, fieldY w, fieldN w, fieldNN w, fieldNNN w⟩

/-- The instruction a bundle stands for, its operands taken from its fields; none for UNKNOWN. -/
def Bundle.instr? (d : Bundle) : Option Instr :=
  match d.kind with
  | .cls => some .cls
  | .ret => some .ret
  | .jp => some (.jp d.nnn)
  | .call => some (.call d.nnn)
  | .seVxNn => some (.seVxNn d.x d.nn)
  | .sneVxNn => some (.sneVxNn d.x d.nn)
  | .seVxVy => some (.seVxVy d.x d.y)
  | .ldVxNn => some (.ldVxNn d.x d.nn)
  | .addVxNn => some (.addVxNn d.x d.nn)
  | .ldVxVy => some (.ldVxVy d.x d.y)
  | .orVxVy => some (.orVxVy d.x d.y)
  | .andVxVy => some (.andVxVy d.x d.y)
  | .xorVxVy => some (.xorVxVy d.x d.y)
  | .addVxVy => some (.addVxVy d.x d.y)
  | .subVxVy => some (.subVxVy d.x d.y)
  | .shrVx => some (.shrVx d.x d.y)
  | .subnVxVy => some (.subnVxVy d.x d.y)
  | .shlVx => some (.shlVx d.x d.y)
  | .sneVxVy => some (.sneVxVy d.x d.y)
  | .ldINnn => some (.ldINnn d.nnn)
  | .jpV0 => some (.jpV0 d.nnn)
  | .rnd => some (.rnd d.x d.nn)
  | .drw => some (.drw d.x d.y d.n)
  | .skp => some (.skp d.x)
  | .sknp => some (.sknp d.x)
  | .ldVxDt => some (.ldVxDt d.x)
  | .ldVxK => some (.ldVxK d.x)
  | .ldDtVx => some (.ldDtVx d.x)
  | .ldStVx => some (.ldStVx d.x)
  | .addIVx => some (.addIVx d.x)
  | .ldFVx => some (.ldFVx d.x)
  | .ldBVx => some (.ldBVx d.x)
  | .ldMiVx => some (.ldMiVx d.x)
  | .ldVxMi => some (.ldVxMi d.x)
  | .unknown => none

/-- The instruction of a word, or none where the word is UNKNOWN (30_encoding.md R53). -/
def decode (w : Word) : Option Instr := (decodeBundle w).instr?

/-- Why bytes give no instruction. -/
inductive Reject where
  /-- The word matches no row of the opcode table: `Kind.unknown` (30_encoding.md R53). -/
  | unknownOpcode (w : Word)
  /-- Fewer than two bytes: an instruction is one 16-bit word (30_encoding.md R46). -/
  | truncated
deriving DecidableEq, Repr

/-- Two bytes combined big-endian, `hi ‖ lo` (20_memory.md R34). -/
def wordOfBytes (hi lo : Byte) : Word := hi ++ lo

/-- The byte of a word at the lower address. -/
def hiByte (w : Word) : Byte := w.extractLsb' 8 8

/-- The byte of a word at the higher address. -/
def loByte (w : Word) : Byte := w.extractLsb' 0 8

/-- The instruction at the head of some bytes and the bytes after it. -/
def decodeBytes : List Byte → Except Reject (Instr × List Byte)
  | hi :: lo :: rest =>
    match decode (wordOfBytes hi lo) with
    | some i => .ok (i, rest)
    | none => .error (.unknownOpcode (wordOfBytes hi lo))
  | _ => .error .truncated

/-- The encoding of an instruction: its pattern of 30_encoding.md R49 with its operands in the letters' places. -/
def encode : Instr → Word
  | .cls => 0x00E0#16
  | .ret => 0x00EE#16
  | .jp nnn => 0x1#4 ++ nnn
  | .call nnn => 0x2#4 ++ nnn
  | .seVxNn x nn => 0x3#4 ++ x ++ nn
  | .sneVxNn x nn => 0x4#4 ++ x ++ nn
  | .seVxVy x y => 0x5#4 ++ x ++ y ++ 0x0#4
  | .ldVxNn x nn => 0x6#4 ++ x ++ nn
  | .addVxNn x nn => 0x7#4 ++ x ++ nn
  | .ldVxVy x y => 0x8#4 ++ x ++ y ++ 0x0#4
  | .orVxVy x y => 0x8#4 ++ x ++ y ++ 0x1#4
  | .andVxVy x y => 0x8#4 ++ x ++ y ++ 0x2#4
  | .xorVxVy x y => 0x8#4 ++ x ++ y ++ 0x3#4
  | .addVxVy x y => 0x8#4 ++ x ++ y ++ 0x4#4
  | .subVxVy x y => 0x8#4 ++ x ++ y ++ 0x5#4
  | .shrVx x y => 0x8#4 ++ x ++ y ++ 0x6#4
  | .subnVxVy x y => 0x8#4 ++ x ++ y ++ 0x7#4
  | .shlVx x y => 0x8#4 ++ x ++ y ++ 0xE#4
  | .sneVxVy x y => 0x9#4 ++ x ++ y ++ 0x0#4
  | .ldINnn nnn => 0xA#4 ++ nnn
  | .jpV0 nnn => 0xB#4 ++ nnn
  | .rnd x nn => 0xC#4 ++ x ++ nn
  | .drw x y n => 0xD#4 ++ x ++ y ++ n
  | .skp x => 0xE#4 ++ x ++ 0x9E#8
  | .sknp x => 0xE#4 ++ x ++ 0xA1#8
  | .ldVxDt x => 0xF#4 ++ x ++ 0x07#8
  | .ldVxK x => 0xF#4 ++ x ++ 0x0A#8
  | .ldDtVx x => 0xF#4 ++ x ++ 0x15#8
  | .ldStVx x => 0xF#4 ++ x ++ 0x18#8
  | .addIVx x => 0xF#4 ++ x ++ 0x1E#8
  | .ldFVx x => 0xF#4 ++ x ++ 0x29#8
  | .ldBVx x => 0xF#4 ++ x ++ 0x33#8
  | .ldMiVx x => 0xF#4 ++ x ++ 0x55#8
  | .ldVxMi x => 0xF#4 ++ x ++ 0x65#8

/-- An upper-case hex digit. -/
def hexDigit (d : Nibble) : String := String.singleton (Nat.digitChar d.toNat).toUpper

/-- A register's name, V0 to VF. -/
def asmReg (x : Nibble) : String := "V" ++ hexDigit x

/-- A byte in assembly, 0x and two digits. -/
def asmByte (b : Byte) : String := "0x" ++ hexDigit (b.extractLsb' 4 4) ++ hexDigit (b.extractLsb' 0 4)

/-- An address in assembly, 0x and three digits. -/
def asmAddr (a : Addr) : String :=
  "0x" ++ hexDigit (a.extractLsb' 8 4) ++ hexDigit (a.extractLsb' 4 4) ++ hexDigit (a.extractLsb' 0 4)

/-- A mnemonic with one operand. -/
def asm1 (m a : String) : String := m ++ " " ++ a

/-- A mnemonic with two operands. -/
def asm2 (m a b : String) : String := m ++ " " ++ a ++ ", " ++ b

/-- An instruction in the assembly syntax of 30_encoding.md R56 (the syntax is the spec's own decision D24; log 18). -/
def asm : Instr → String
  | .cls => "CLS"
  | .ret => "RET"
  | .jp nnn => asm1 "JP" (asmAddr nnn)
  | .call nnn => asm1 "CALL" (asmAddr nnn)
  | .seVxNn x nn => asm2 "SE" (asmReg x) (asmByte nn)
  | .sneVxNn x nn => asm2 "SNE" (asmReg x) (asmByte nn)
  | .seVxVy x y => asm2 "SE" (asmReg x) (asmReg y)
  | .ldVxNn x nn => asm2 "LD" (asmReg x) (asmByte nn)
  | .addVxNn x nn => asm2 "ADD" (asmReg x) (asmByte nn)
  | .ldVxVy x y => asm2 "LD" (asmReg x) (asmReg y)
  | .orVxVy x y => asm2 "OR" (asmReg x) (asmReg y)
  | .andVxVy x y => asm2 "AND" (asmReg x) (asmReg y)
  | .xorVxVy x y => asm2 "XOR" (asmReg x) (asmReg y)
  | .addVxVy x y => asm2 "ADD" (asmReg x) (asmReg y)
  | .subVxVy x y => asm2 "SUB" (asmReg x) (asmReg y)
  | .shrVx x y => asm2 "SHR" (asmReg x) (asmReg y)
  | .subnVxVy x y => asm2 "SUBN" (asmReg x) (asmReg y)
  | .shlVx x y => asm2 "SHL" (asmReg x) (asmReg y)
  | .sneVxVy x y => asm2 "SNE" (asmReg x) (asmReg y)
  | .ldINnn nnn => asm2 "LD" "I" (asmAddr nnn)
  | .jpV0 nnn => asm2 "JP" "V0" (asmAddr nnn)
  | .rnd x nn => asm2 "RND" (asmReg x) (asmByte nn)
  | .drw x y n => asm2 "DRW" (asmReg x) (asmReg y) ++ ", " ++ "0x" ++ hexDigit n
  | .skp x => asm1 "SKP" (asmReg x)
  | .sknp x => asm1 "SKNP" (asmReg x)
  | .ldVxDt x => asm2 "LD" (asmReg x) "DT"
  | .ldVxK x => asm2 "LD" (asmReg x) "K"
  | .ldDtVx x => asm2 "LD" "DT" (asmReg x)
  | .ldStVx x => asm2 "LD" "ST" (asmReg x)
  | .addIVx x => asm2 "ADD" "I" (asmReg x)
  | .ldFVx x => asm2 "LD" "F" (asmReg x)
  | .ldBVx x => asm2 "LD" "B" (asmReg x)
  | .ldMiVx x => asm2 "LD" "[I]" (asmReg x)
  | .ldVxMi x => asm2 "LD" (asmReg x) "[I]"

/-- A word in assembly: its instruction, or the `DW` directive for an UNKNOWN word (30_encoding.md R56, R57). -/
def asmWord (w : Word) : String :=
  match decode w with
  | some i => asm i
  | none => "DW 0x" ++ hexDigit (fieldF w) ++ hexDigit (fieldX w) ++ hexDigit (fieldY w) ++ hexDigit (fieldN w)

/-- The word that spec/opcode_table.json's numbering (bit 0 the least significant bit of the first word) calls `w`,
when the row has `nbits` bits: bits from `nbits` on are 0. -/
def tableWord (nbits w : Nat) : Word := BitVec.ofNat 16 (w % 2 ^ nbits)

/-- The instruction the decoder reads from a word numbered as the opcode table numbers it: the word is laid out as
memory holds it, high byte first, and given to `decodeBytes`. -/
def decodeTableWord (nbits w : Nat) : Option Instr :=
  match decodeBytes [hiByte (tableWord nbits w), loByte (tableWord nbits w)] with
  | .ok (i, _) => some i
  | .error _ => none

/-- A row of the opcode table: a word is of the row's kind when `word & mask = pattern` (30_encoding.md R49). -/
structure Row where
  kind    : Kind
  pattern : Word
  mask    : Word
deriving DecidableEq, Repr

/-- A word matches a row. -/
def Row.matches (r : Row) (w : Word) : Bool := (w &&& r.mask) == r.pattern

/-- The rows of families 0x0 to 0x7. -/
def opcodeRowsLow : List Row := [
  ⟨.cls, 0x00E0#16, 0xFFFF#16⟩,
  ⟨.ret, 0x00EE#16, 0xFFFF#16⟩,
  ⟨.jp, 0x1000#16, 0xF000#16⟩,
  ⟨.call, 0x2000#16, 0xF000#16⟩,
  ⟨.seVxNn, 0x3000#16, 0xF000#16⟩,
  ⟨.sneVxNn, 0x4000#16, 0xF000#16⟩,
  ⟨.seVxVy, 0x5000#16, 0xF00F#16⟩,
  ⟨.ldVxNn, 0x6000#16, 0xF000#16⟩,
  ⟨.addVxNn, 0x7000#16, 0xF000#16⟩]

/-- The rows of families 0x8 and 0x9. -/
def opcodeRowsRegister : List Row := [
  ⟨.ldVxVy, 0x8000#16, 0xF00F#16⟩,
  ⟨.orVxVy, 0x8001#16, 0xF00F#16⟩,
  ⟨.andVxVy, 0x8002#16, 0xF00F#16⟩,
  ⟨.xorVxVy, 0x8003#16, 0xF00F#16⟩,
  ⟨.addVxVy, 0x8004#16, 0xF00F#16⟩,
  ⟨.subVxVy, 0x8005#16, 0xF00F#16⟩,
  ⟨.shrVx, 0x8006#16, 0xF00F#16⟩,
  ⟨.subnVxVy, 0x8007#16, 0xF00F#16⟩,
  ⟨.shlVx, 0x800E#16, 0xF00F#16⟩,
  ⟨.sneVxVy, 0x9000#16, 0xF00F#16⟩]

/-- The rows of families 0xA to 0xF. -/
def opcodeRowsHigh : List Row := [
  ⟨.ldINnn, 0xA000#16, 0xF000#16⟩,
  ⟨.jpV0, 0xB000#16, 0xF000#16⟩,
  ⟨.rnd, 0xC000#16, 0xF000#16⟩,
  ⟨.drw, 0xD000#16, 0xF000#16⟩,
  ⟨.skp, 0xE09E#16, 0xF0FF#16⟩,
  ⟨.sknp, 0xE0A1#16, 0xF0FF#16⟩,
  ⟨.ldVxDt, 0xF007#16, 0xF0FF#16⟩,
  ⟨.ldVxK, 0xF00A#16, 0xF0FF#16⟩,
  ⟨.ldDtVx, 0xF015#16, 0xF0FF#16⟩,
  ⟨.ldStVx, 0xF018#16, 0xF0FF#16⟩,
  ⟨.addIVx, 0xF01E#16, 0xF0FF#16⟩,
  ⟨.ldFVx, 0xF029#16, 0xF0FF#16⟩,
  ⟨.ldBVx, 0xF033#16, 0xF0FF#16⟩,
  ⟨.ldMiVx, 0xF055#16, 0xF0FF#16⟩,
  ⟨.ldVxMi, 0xF065#16, 0xF0FF#16⟩]

/-- The opcode table of 30_encoding.md R49, in its order. -/
def opcodeTable : List Row := opcodeRowsLow ++ opcodeRowsRegister ++ opcodeRowsHigh

end Sys2Proof
end

