-- ==== Sys2Proof/Config.lean ====
section
/-! DEFINITION. The implementation parameters of 00_scope.md R5, and the values the spec leaves open, as constants
without a body. (GLYPH_DATA stands in Machine/Memory.lean, beside the reset contents it belongs to.) -/

namespace Sys2Proof.Config

/-- MEM_SIZE: the memory has the addresses 0x000 to 0xFFF (R5, 20_memory.md R29). -/
abbrev memSize : Nat := 4096

/-- PROG_BASE: where LOAD puts the image, and PC at reset (R5). -/
abbrev progBase : Nat := 0x200

/-- GLYPH_BASE: where the glyph set begins (R5). -/
abbrev glyphBase : Nat := 0x050

/-- GLYPH_HEIGHT: bytes per glyph (R5). -/
abbrev glyphHeight : Nat := 5

/-- NUM_V: general registers (R5). -/
abbrev numV : Nat := 16

/-- STACK_DEPTH: return slots (R5). -/
abbrev stackDepth : Nat := 16

/-- SCREEN_W: pixel columns (R5). -/
abbrev screenW : Nat := 64

/-- SCREEN_H: pixel rows (R5). -/
abbrev screenH : Nat := 32

/-- NUM_KEYS: keypad entries (R5). -/
abbrev numKeys : Nat := 16

/-- The largest image LOAD accepts: 4096 - 0x200 = 3584 bytes (70_reset_and_hazards.md R129). -/
abbrev maxImage : Nat := memSize - progBase

/-- FREE VALUE. The random byte of a CXNN for which the host handed over no byte: any value 0..255
(43_register_alu.md R90, 93_implementation_defined.md U6). The argument is `State.freeIndex`. Log 4. -/
opaque randomByte : Nat → Byte

/-! FREE VALUES. What each field holds after a fatal fault: "every state field other than `status` is UNSPECIFIED"
(60_exceptions.md R108, 93_implementation_defined.md U2). The first argument is `State.freeIndex`. Log 3. -/

/-- The byte at an address after a fault. -/
opaque faultedByte : Nat → Nat → Byte

/-- The general registers after a fault. -/
opaque faultedV : Nat → Vector Byte numV

/-- I after a fault. -/
opaque faultedI : Nat → Word

/-- PC after a fault. -/
opaque faultedPc : Nat → Word

/-- The stack slots after a fault. -/
opaque faultedStack : Nat → Vector Word stackDepth

/-- SP after a fault. -/
opaque faultedSp : Nat → Fin (stackDepth + 1)

/-- DT after a fault. -/
opaque faultedDt : Nat → Byte

/-- ST after a fault. -/
opaque faultedSt : Nat → Byte

/-- The pixel buffer after a fault. -/
opaque faultedPix : Nat → Vector (Vector Bool screenW) screenH

/-- The redraw flag after a fault. -/
opaque faultedRedraw : Nat → Bool

/-- The keypad after a fault. -/
opaque faultedKey : Nat → Vector Bool numKeys

end Sys2Proof.Config
end

