-- ==== Sys2Proof/Machine/State.lean ====
section
/-! DEFINITION. The state of the CORE (10_state.md R13) as plain data, the reasons a step can stop, and the state after
RESET. -/

namespace Sys2Proof.Machine

/-- The fatal faults of 60_exceptions.md R106. -/
inductive FaultKind where
  /-- MEM_OUT_OF_RANGE: a fetch or data access at an address of 4096 or above. -/
  | memOutOfRange
  /-- STACK_OVERFLOW: 2NNN with SP = 16. -/
  | stackOverflow
  /-- STACK_UNDERFLOW: 00EE with SP = 0. -/
  | stackUnderflow
  /-- KEY_INDEX_OUT_OF_RANGE: EX9E or EXA1 with V[X] > 15. -/
  | keyIndexOutOfRange
  /-- IMAGE_TOO_LARGE: LOAD of more than 3584 bytes. -/
  | imageTooLarge
deriving DecidableEq, Repr

/-- `raise Fault(kind, info)` (00_scope.md R8): the kind, and the address, index or length that R106 names. -/
structure Raise where
  kind : FaultKind
  info : Nat
deriving DecidableEq, Repr

/-- The status field (10_state.md R24). -/
inductive Status where
  | running
  /-- `Faulted(kind, info, at)`: `origin` is the fetch address of the step that faulted, none for LOAD (R107). -/
  | faulted (kind : FaultKind) (info : Nat) (origin : Option Word)
deriving DecidableEq, Repr

/-- Memory: the (address, byte) pairs whose byte differs from the reset contents, addresses strictly rising
(`Memory.wf` in Machine/Memory.lean says so). Log 8. -/
abbrev Memory := List Host.Cell

/-- Everything 10_state.md R13 gives the CORE; `draws` and `freeIndex` are the model's own (log 5). -/
structure State where
  /-- `mem` (R23, 20_memory.md R29). -/
  mem : Memory
  /-- V0 to VF; V[15] is VF (R14, R15). -/
  v : Vector Byte Config.numV
  /-- The index register I (R16). -/
  i : Word
  /-- The program counter PC (R17). -/
  pc : Word
  /-- The return slots (R18). -/
  stack : Vector Word Config.stackDepth
  /-- SP, 0 to 16: the number of live slots (R18). -/
  sp : Fin (Config.stackDepth + 1)
  /-- The delay timer (R19). -/
  dt : Byte
  /-- The sound timer (R19). -/
  st : Byte
  /-- The pixel buffer, 32 rows of 64 pixels (R20). -/
  pix : Vector (Vector Bool Config.screenW) Config.screenH
  /-- The redraw flag (R21). -/
  redraw : Bool
  /-- The keypad, written by the host only (R22). -/
  key : Vector Bool Config.numKeys
  /-- Running or Faulted (R24). -/
  status : Status
  /-- MODEL'S OWN: the random bytes the host handed over for CXNN executions to come, oldest first (log 4, 5). -/
  draws : List Byte
  /-- MODEL'S OWN: how many free values have been used (log 5). -/
  freeIndex : Nat
deriving DecidableEq, Repr

/-- Why the machine does not move. -/
inductive Fault where
  /-- Raised by `step`, TICK, SET_KEY, CLEAR_REDRAW and LOAD on a CORE whose status is Faulted: it has no move until RESET
  (60_exceptions.md R109, R110). It carries the status. Safe: nothing moves. Log 2. -/
  | coreFaulted (kind : FaultKind) (info : Nat) (origin : Option Word)
deriving DecidableEq, Repr

/-- Why the model gives no move. -/
inductive Refusal where
  /-- Raised by `exec` for an instruction without a meaning (none is left). Safe. -/
  | notModelled (mnemonic : String)
  /-- Raised by LOAD when the CORE is not right after RESET (70_reset_and_hazards.md R130,
  93_implementation_defined.md U12: refuse). Safe. Log 7. -/
  | loadNotAtLaunch
deriving DecidableEq, Repr

/-- What a meaning answers. -/
abbrev Out := Host.Outcome State Fault Refusal

/-- What the statements of a rule answer before the fault entry is applied: the state, or the first raised fault. -/
abbrev Result := Except Raise State

/-- The unknown-opcode diagnostic `Diag(UNKNOWN_OPCODE, (w, a))` (60_exceptions.md R112). -/
structure Diag where
  word : Word
  addr : Word
deriving DecidableEq, Repr

/-- What one STEP gives the host: its outcome, and zero or one diagnostic (60_exceptions.md R123). -/
structure StepOutput where
  outcome : Out
  diag    : Option Diag

/-- RESET (70_reset_and_hazards.md R128): memory at its reset contents, PC at 0x200, everything else 0 or false, Running.
The model's own fields start empty and at 0 (log 5, DESIGN CHOICE). -/
def State.reset : State where
  mem := []
  v := Vector.replicate Config.numV 0
  i := 0
  pc := BitVec.ofNat 16 Config.progBase
  stack := Vector.replicate Config.stackDepth 0
  sp := 0
  dt := 0
  st := 0
  pix := Vector.replicate Config.screenH (Vector.replicate Config.screenW false)
  redraw := false
  key := Vector.replicate Config.numKeys false
  status := .running
  draws := []
  freeIndex := 0

end Sys2Proof.Machine
end

