-- ==== Sys2Proof/Machine/Memory.lean ====
section
/-! DEFINITION. The memory array (20_memory.md R29, R37, R38): the reset contents, reading and writing one cell of the
canonical list, and the canonical form. -/

namespace Sys2Proof.Machine

/-- Glyphs 0 to 7 of 20_memory.md R38. -/
def glyphsLow : List Byte :=
  [0xF0, 0x90, 0x90, 0x90, 0xF0] ++
  [0x20, 0x60, 0x20, 0x20, 0x70] ++
  [0xF0, 0x10, 0xF0, 0x80, 0xF0] ++
  [0xF0, 0x10, 0xF0, 0x10, 0xF0] ++
  [0x90, 0x90, 0xF0, 0x10, 0x10] ++
  [0xF0, 0x80, 0xF0, 0x10, 0xF0] ++
  [0xF0, 0x80, 0xF0, 0x90, 0xF0] ++
  [0xF0, 0x10, 0x20, 0x40, 0x40]

/-- Glyphs 8 to F of 20_memory.md R38. -/
def glyphsHigh : List Byte :=
  [0xF0, 0x90, 0xF0, 0x90, 0xF0] ++
  [0xF0, 0x90, 0xF0, 0x10, 0xF0] ++
  [0xF0, 0x90, 0xF0, 0x90, 0x90] ++
  [0xE0, 0x90, 0xE0, 0x90, 0xE0] ++
  [0xF0, 0x80, 0x80, 0x80, 0xF0] ++
  [0xE0, 0x90, 0x90, 0x90, 0xE0] ++
  [0xF0, 0x80, 0xF0, 0x80, 0xF0] ++
  [0xF0, 0x80, 0xF0, 0x80, 0x80]

/-- GLYPH_DATA: the 80 bytes of 20_memory.md R38, row r of glyph d at index 5·d + r (log 8). -/
def glyphData : List Byte := glyphsLow ++ glyphsHigh

/-- The reset contents: GLYPH_DATA from 0x050 on, 0 elsewhere (20_memory.md R37). It is what an unlisted address reads as. -/
def resetByte (a : Nat) : Byte :=
  if a < Config.glyphBase then 0 else glyphData.getD (a - Config.glyphBase) 0

/-- The byte at an address. -/
def Memory.readAt : Memory → Nat → Byte
  | [], a => resetByte a
  | (b, u) :: m, a => if a = b then u else Memory.readAt m a

/-- Memory with no entry for an address. -/
def Memory.without (m : Memory) (a : Nat) : Memory := m.filter fun c => c.1 != a

/-- Memory with an entry put in its place by address. -/
def Memory.place : Memory → Nat → Byte → Memory
  | [], a, u => [(a, u)]
  | c :: m, a, u => if a < c.1 then (a, u) :: c :: m else c :: Memory.place m a u

/-- `mem[a] <- u`, keeping the canonical form: a byte equal to the reset contents is not listed. -/
def Memory.writeAt (m : Memory) (a : Nat) (u : Byte) : Memory :=
  if u = resetByte a then m.without a else (m.without a).place a u

/-- The memory that holds `f a` at each address of the address space. Irreducible, so that no proof unrolls the 4096
addresses by accident. -/
@[irreducible] def Memory.ofBytes (f : Nat → Byte) : Memory :=
  (List.range Config.memSize).filterMap fun a => if f a = resetByte a then none else some (a, f a)

/-- The canonical form from address `lo` on: addresses strictly rising and inside the address space, no entry equal to
what an unlisted address reads as. -/
def Memory.wfFrom : Nat → Memory → Bool
  | _, [] => true
  | lo, (a, u) :: m =>
    decide (lo ≤ a) && decide (a < Config.memSize) && (u != resetByte a) && Memory.wfFrom (a + 1) m

/-- The canonical form of memory. Two canonical memories that read alike are equal. -/
def Memory.wf (m : Memory) : Bool := Memory.wfFrom 0 m

end Sys2Proof.Machine
end

