-- ==== Sys2Proof/Machine/Operands.lean ====
section
/-! DEFINITION. The operand forms of 30_encoding.md R55: registers, immediates, the effective address I + k, the glyph
address, the sprite's origin, and the implicit VF. -/

namespace Sys2Proof.Machine

/-- VF, the flag register (10_state.md R15). -/
abbrev vf : Nibble := 0xF

/-- V[x] (10_state.md R14: none is hardwired). -/
def State.reg (s : State) (x : Nibble) : Byte := s.v[x.toNat]'(x.isLt)

/-- The index of the k-th general register, for the loops over V[0..X]. -/
def regIndex (k : Nat) : Nibble := BitVec.ofNat 4 k

/-- NNN zero-extended to a 16-bit address (30_encoding.md R47). -/
def zextAddr (nnn : Addr) : Word := nnn.setWidth 16

/-- A byte zero-extended to 16 bits. -/
def zextByte (b : Byte) : Word := b.setWidth 16

/-- The effective address I + k, an unbounded integer (20_memory.md R30). -/
def State.effAddr (s : State) (k : Nat) : Nat := s.i.toNat + k

/-- The address of the glyph of digit `v`, not masked: 0x050 + 5·v (44_index_memory.md R94). -/
def glyphAddr (v : Byte) : Word := BitVec.ofNat 16 Config.glyphBase + BitVec.ofNat 16 Config.glyphHeight * zextByte v

/-- The address of the instruction that executes: PC holds it plus 2 (30_encoding.md R60). Log 1. -/
def State.instrAddr (s : State) : Word := s.pc - 2

/-- The sprite's origin column, V[X] mod 64 (41_display.md R67). -/
def State.originColumn (s : State) (x : Nibble) : Nat := (s.reg x).toNat % Config.screenW

/-- The sprite's origin row, V[Y] mod 32 (41_display.md R67). -/
def State.originRow (s : State) (y : Nibble) : Nat := (s.reg y).toNat % Config.screenH

/-- The pixel of a sprite row byte at column offset c, most significant bit leftmost (41_display.md R68). -/
def spriteBit (b : Byte) (c : Nat) : Bool := b.getLsbD (7 - c)

/-- The hundreds digit (44_index_memory.md R95). -/
def bcdHundreds (v : Byte) : Byte := BitVec.ofNat 8 (v.toNat / 100)

/-- The tens digit (44_index_memory.md R95). -/
def bcdTens (v : Byte) : Byte := BitVec.ofNat 8 (v.toNat / 10 % 10)

/-- The ones digit (44_index_memory.md R95). -/
def bcdOnes (v : Byte) : Byte := BitVec.ofNat 8 (v.toNat % 10)

/-- The pixel at a row and column; false outside the screen, where there is none (10_state.md R20). -/
def State.pixel (s : State) (row col : Nat) : Bool :=
  if h : row < Config.screenH ∧ col < Config.screenW then (s.pix[row]'h.1)[col]'h.2 else false

/-- The pixel at a linear index row·64 + column, as the host reads the buffer (60_exceptions.md R120). -/
def State.pixelAt (s : State) (index : Nat) : Bool := s.pixel (index / Config.screenW) (index % Config.screenW)

/-- The sound signal the host derives: ST ≠ 0 (60_exceptions.md R118). -/
def State.soundActive (s : State) : Bool := s.st != 0

/-- The lowest-indexed pressed key (45_keypad_timers.md R103). -/
def State.firstKey (s : State) : Option Nat := s.key.toList.findIdx? id

/-- The random byte of the CXNN that executes: the oldest one the host handed over, else a free value
(43_register_alu.md R90; log 4). -/
def State.nextDraw (s : State) : Byte :=
  match s.draws with
  | r :: _ => r
  | [] => Config.randomByte s.freeIndex

end Sys2Proof.Machine
end

