-- ==== Sys2Proof/Machine/Flags.lean ====
section
/-! DEFINITION. The flag computations (43_register_alu.md R78, R85 to R89). VF is the only flag (10_state.md R15); the
collision flag of DXYN is set pixel by pixel in Ops.lean. -/

namespace Sys2Proof.Machine

/-- A condition used as a number: 1 when true, 0 when false (00_scope.md R10). -/
def boolByte (c : Bool) : Byte := if c then 1 else 0

/-- The carry of p + q: 1 when the sum exceeds 255 (R85). -/
def carryFlag (p q : Byte) : Byte := boolByte (decide (255 < p.toNat + q.toNat))

/-- The no-borrow flag of p - q: 1 when p ≥ q (R86, R88). -/
def noBorrowFlag (p q : Byte) : Byte := boolByte (decide (q.toNat ≤ p.toNat))

/-- The bit a right shift drops: bit 0 (R87). -/
def shiftRightFlag (p : Byte) : Byte := p &&& 1

/-- The bit a left shift drops: bit 7 (R89). -/
def shiftLeftFlag (p : Byte) : Byte := boolByte (p.getLsbD 7)

end Sys2Proof.Machine
end

