-- ==== Sys2Proof/Machine/Ops.lean ====
section
/-! DEFINITION. The operations the meanings share: writing each field, MemRead and MemWrite, the loops of the rules, the
call stack, the keypad, drawing, the random draw, and raising a fatal fault. -/

namespace Sys2Proof.Machine

/-! ## Writing one field -/

/-- `V[x] <- b`. -/
def State.setReg (s : State) (x : Nibble) (b : Byte) : State := { s with v := s.v.set x.toNat b x.isLt }

/-- Writes memory. -/
def State.setMem (s : State) (m : Memory) : State := { s with mem := m }

/-- `I <- w`. -/
def State.setI (s : State) (w : Word) : State := { s with i := w }

/-- `PC <- w`. -/
def State.setPc (s : State) (w : Word) : State := { s with pc := w }

/-- Writes the stack slots. -/
def State.setStack (s : State) (k : Vector Word Config.stackDepth) : State := { s with stack := k }

/-- `SP <- n`. -/
def State.setSp (s : State) (n : Fin (Config.stackDepth + 1)) : State := { s with sp := n }

/-- `DT <- b`. -/
def State.setDt (s : State) (b : Byte) : State := { s with dt := b }

/-- `ST <- b`. -/
def State.setSt (s : State) (b : Byte) : State := { s with st := b }

/-- Writes the pixel buffer. -/
def State.setPix (s : State) (p : Vector (Vector Bool Config.screenW) Config.screenH) : State := { s with pix := p }

/-- `redraw <- b`. -/
def State.setRedraw (s : State) (b : Bool) : State := { s with redraw := b }

/-- Writes the keypad. -/
def State.setKeys (s : State) (k : Vector Bool Config.numKeys) : State := { s with key := k }

/-- `status <- u`. -/
def State.setStatus (s : State) (u : Status) : State := { s with status := u }

/-- Writes the bytes handed over for CXNN (the model's own field). -/
def State.setDraws (s : State) (l : List Byte) : State := { s with draws := l }

/-- Writes the free-value counter (the model's own field). -/
def State.setFreeIndex (s : State) (n : Nat) : State := { s with freeIndex := n }

/-! ## Memory (20_memory.md R31, R32) -/

/-- The byte at an address. -/
def State.byteAt (s : State) (a : Nat) : Byte := s.mem.readAt a

/-- `MemRead(a, 1)` (R31). -/
def memRead (s : State) (a : Nat) : Except Raise Byte :=
  if Config.memSize ≤ a then .error ⟨.memOutOfRange, a⟩ else .ok (s.byteAt a)

/-- `mem[a] <- b` inside the address space. -/
def State.setByte (s : State) (a : Nat) (b : Byte) : State := s.setMem (s.mem.writeAt a b)

/-- `MemWrite(a, 1, b)` (R32). -/
def memWrite (s : State) (a : Nat) (b : Byte) : Result :=
  if Config.memSize ≤ a then .error ⟨.memOutOfRange, a⟩ else .ok (s.setByte a b)

/-! ## The loops of the rules -/

/-- `for k in 0 .. n-1`, ascending, each round on the state the rounds before left; a raised fault ends it (00_scope.md R9,
60_exceptions.md R107). -/
def forUpTo : Nat → (Nat → State → Result) → State → Result
  | 0, _, s => .ok s
  | n + 1, body, s =>
    match forUpTo n body s with
    | .error r => .error r
    | .ok t => body n t

/-- The same loop for a body that raises nothing. -/
def loopUpTo : Nat → (Nat → State → State) → State → State
  | 0, _, s => s
  | n + 1, body, s => body n (loopUpTo n body s)

/-- Store V[k] at I + k (44_index_memory.md R96). -/
def storeReg (k : Nat) (s : State) : Result := memWrite s (s.effAddr k) (s.reg (regIndex k))

/-- Load V[k] from I + k (44_index_memory.md R97). -/
def loadReg (k : Nat) (s : State) : Result :=
  match memRead s (s.effAddr k) with
  | .error r => .error r
  | .ok b => .ok (s.setReg (regIndex k) b)

/-- The BCD digits of `v` to I, I + 1, I + 2, in that order (44_index_memory.md R95). -/
def storeBcd (v : Byte) (s : State) : Result :=
  match memWrite s (s.effAddr 0) (bcdHundreds v) with
  | .error r => .error r
  | .ok s1 =>
    match memWrite s1 (s1.effAddr 1) (bcdTens v) with
    | .error r => .error r
    | .ok s2 => memWrite s2 (s2.effAddr 2) (bcdOnes v)

/-! ## Program counter and call stack -/

/-- `skip()`: PC <- PC + 2 (30_encoding.md R61). -/
def State.skip (s : State) : State := s.setPc (s.pc + 2)

/-- Skip when a condition holds. -/
def State.skipIf (s : State) (c : Bool) : State := if c then s.skip else s

/-- Push PC (42_control_flow.md R71); STACK_OVERFLOW with the instruction's address when all slots are live. -/
def pushPc (s : State) : Result :=
  if h : s.sp.val < Config.stackDepth then
    .ok ((s.setStack (s.stack.set s.sp.val s.pc h)).setSp ⟨s.sp.val + 1, Nat.succ_lt_succ h⟩)
  else .error ⟨.stackOverflow, s.instrAddr.toNat⟩

/-- Pop into PC (42_control_flow.md R69); STACK_UNDERFLOW with the instruction's address when no slot is live. The popped
slot keeps its value (10_state.md R18). -/
def popPc (s : State) : Result :=
  if h : 0 < s.sp.val then
    have hs : s.sp.val - 1 < Config.stackDepth := by have := s.sp.isLt; omega
    .ok ((s.setPc s.stack[s.sp.val - 1]).setSp ⟨s.sp.val - 1, Nat.lt_succ_of_lt hs⟩)
  else .error ⟨.stackUnderflow, s.instrAddr.toNat⟩

/-! ## Keypad -/

/-- `KeyAt(v)`: KEY_INDEX_OUT_OF_RANGE above 15, no masking (45_keypad_timers.md R99). -/
def keyAt (s : State) (v : Byte) : Except Raise Bool :=
  if h : v.toNat < Config.numKeys then .ok s.key[v.toNat] else .error ⟨.keyIndexOutOfRange, v.toNat⟩

/-- Skip when the key V[x] is in the given position. -/
def skipOnKey (x : Nibble) (pressed : Bool) (s : State) : Result :=
  match keyAt s (s.reg x) with
  | .error r => .error r
  | .ok b => .ok (s.skipIf (b == pressed))

/-! ## Drawing (41_display.md R67, R68) -/

/-- `pix[row][col] <- b`; outside the screen there is no pixel to write. -/
def State.setPixel (s : State) (row col : Nat) (b : Bool) : State :=
  if h : row < Config.screenH ∧ col < Config.screenW then
    s.setPix (s.pix.set row ((s.pix[row]'h.1).set col b h.2) h.1)
  else s

/-- Draw one sprite bit: nothing for a clear bit or outside the screen (clipped); else VF becomes 1 if the pixel was on,
and the pixel flips. -/
def drawPixel (row col : Nat) (bit : Bool) (s : State) : State :=
  if bit && decide (col < Config.screenW) && decide (row < Config.screenH) then
    (if s.pixel row col then s.setReg vf 1 else s).setPixel row col (!s.pixel row col)
  else s

/-- Draw one row byte at origin column `cx`. -/
def drawByte (row cx : Nat) (b : Byte) (s : State) : State :=
  loopUpTo 8 (fun c t => drawPixel row (cx + c) (spriteBit b c) t) s

/-- Read sprite row r at I + r, clipped or not, and draw it. -/
def drawRow (cx cy r : Nat) (s : State) : Result :=
  match memRead s (s.effAddr r) with
  | .error e => .error e
  | .ok b => .ok (drawByte (cy + r) cx b s)

/-- The whole of DXYN: the origin is read before VF becomes 0; redraw is set at the end, whatever was drawn. -/
def drawSprite (x y n : Nibble) (s : State) : Result :=
  match forUpTo n.toNat (drawRow (s.originColumn x) (s.originRow y)) (s.setReg vf 0) with
  | .error r => .error r
  | .ok t => .ok (t.setRedraw true)

/-- Every pixel off (41_display.md R66). -/
def State.clearScreen (s : State) : State :=
  s.setPix (Vector.replicate Config.screenH (Vector.replicate Config.screenW false))

/-! ## The random draw (43_register_alu.md R90; log 4) -/

/-- The state after a draw was used: the byte handed over is gone, or one more free value has been used. -/
def State.dropDraw (s : State) : State :=
  match s.draws with
  | _ :: l => s.setDraws l
  | [] => s.setFreeIndex (s.freeIndex + 1)

/-! ## Raising a fatal fault, and the way out (60_exceptions.md R107 to R110) -/

/-- Every field but `status` at an unspecified value, a free one (R108; log 3). The counter advances. -/
def State.unspecified (s : State) : State where
  mem := Memory.ofBytes (Config.faultedByte s.freeIndex)
  v := Config.faultedV s.freeIndex
  i := Config.faultedI s.freeIndex
  pc := Config.faultedPc s.freeIndex
  stack := Config.faultedStack s.freeIndex
  sp := Config.faultedSp s.freeIndex
  dt := Config.faultedDt s.freeIndex
  st := Config.faultedSt s.freeIndex
  pix := Config.faultedPix s.freeIndex
  redraw := Config.faultedRedraw s.freeIndex
  key := Config.faultedKey s.freeIndex
  status := s.status
  draws := s.draws
  freeIndex := s.freeIndex + 1

/-- The code of a fault kind, as the host reads it (R106; the codes are the spec's own decision D3). -/
def FaultKind.code : FaultKind → Nat
  | .memOutOfRange => 1
  | .stackOverflow => 2
  | .stackUnderflow => 3
  | .keyIndexOutOfRange => 4
  | .imageTooLarge => 5

/-- Fault entry (R107): `status <- Faulted(kind, info, origin)`, the rest unspecified (R108). There is no vector, no saved
register and no mode to change. -/
def takeFault (r : Raise) (origin : Option Word) (s : State) : State :=
  s.unspecified.setStatus (.faulted r.kind r.info origin)

/-- There is no return from a fault (R109): RESET is the way out, from any status. It sets every field of the spec's record
to its reset value (70_reset_and_hazards.md R128); the model's counter goes on, so that free values are not used twice (log 14). -/
def resetOp (s : State) : State := State.reset.setFreeIndex s.freeIndex

/-- A move that a CORE makes only while Running; a Faulted one has none (R110; log 2). -/
def whenRunning (s : State) (o : Out) : Out :=
  match s.status with
  | .running => o
  | .faulted k n a => .fault (.coreFaulted k n a)

/-- What a meaning answers: the state its rule leaves, or the state after the fault the rule raised, recorded against the
address of the instruction (R107). -/
def finish (s : State) (r : Result) : Out :=
  match r with
  | .ok t => .next t
  | .error e => .next (takeFault e (some s.instrAddr) s)

end Sys2Proof.Machine
end

