-- ==== Sys2Proof/Machine/Control.lean ====
section
/-! DEFINITION. The control-flow instructions (42_control_flow.md). PC is the instruction's address plus 2 on entry. -/

namespace Sys2Proof.Machine

/-- 00EE RET (R69). -/
def execRet (s : State) : Out := finish s (popPc s)

/-- 1NNN JP (R70). -/
def execJp (nnn : Addr) (s : State) : Out := .next (s.setPc (zextAddr nnn))

/-- 2NNN CALL (R71): push, then jump. -/
def execCall (nnn : Addr) (s : State) : Out :=
  finish s (match pushPc s with
    | .error r => .error r
    | .ok t => .ok (t.setPc (zextAddr nnn)))

/-- 3XNN SE (R72). -/
def execSeVxNn (x : Nibble) (nn : Byte) (s : State) : Out := .next (s.skipIf (s.reg x == nn))

/-- 4XNN SNE (R73). -/
def execSneVxNn (x : Nibble) (nn : Byte) (s : State) : Out := .next (s.skipIf (s.reg x != nn))

/-- 5XY0 SE (R74). -/
def execSeVxVy (x y : Nibble) (s : State) : Out := .next (s.skipIf (s.reg x == s.reg y))

/-- 9XY0 SNE (R75). -/
def execSneVxVy (x y : Nibble) (s : State) : Out := .next (s.skipIf (s.reg x != s.reg y))

/-- BNNN JP V0 (R76). -/
def execJpV0 (nnn : Addr) (s : State) : Out := .next (s.setPc (zextAddr nnn + zextByte (s.reg 0)))

end Sys2Proof.Machine
end

