-- ==== Sys2Proof/Machine/Display.lean ====
section
/-! DEFINITION. The display instructions (41_display.md). PC is left as the step advanced it. -/

namespace Sys2Proof.Machine

/-- 00E0 CLS (R66). -/
def execCls (s : State) : Out := .next (s.clearScreen.setRedraw true)

/-- DXYN DRW (R67, R68). -/
def execDrw (x y n : Nibble) (s : State) : Out := finish s (drawSprite x y n s)

end Sys2Proof.Machine
end

