-- ==== Sys2Proof/Machine/Index.lean ====
section
/-! DEFINITION. The index register and memory instructions (44_index_memory.md). None of the memory instructions changes I
(R98). -/

namespace Sys2Proof.Machine

/-- ANNN LD I (R92). -/
def execLdINnn (nnn : Addr) (s : State) : Out := .next (s.setI (zextAddr nnn))

/-- FX1E ADD I (R93): modulo 2^16, no flag. -/
def execAddIVx (x : Nibble) (s : State) : Out := .next (s.setI (s.i + zextByte (s.reg x)))

/-- FX29 LD F (R94): V[X] is not masked. -/
def execLdFVx (x : Nibble) (s : State) : Out := .next (s.setI (glyphAddr (s.reg x)))

/-- FX33 LD B (R95). -/
def execLdBVx (x : Nibble) (s : State) : Out := finish s (storeBcd (s.reg x) s)

/-- FX55 LD [I] (R96): V[0] to V[X], ascending. -/
def execLdMiVx (x : Nibble) (s : State) : Out := finish s (forUpTo (x.toNat + 1) storeReg s)

/-- FX65 LD Vx (R97): V[0] to V[X], ascending. -/
def execLdVxMi (x : Nibble) (s : State) : Out := finish s (forUpTo (x.toNat + 1) loadReg s)

end Sys2Proof.Machine
end

