-- ==== Sys2Proof/Machine/Keypad.lean ====
section
/-! DEFINITION. The keypad and timer instructions (45_keypad_timers.md). -/

namespace Sys2Proof.Machine

/-- EX9E SKP (R100). -/
def execSkp (x : Nibble) (s : State) : Out := finish s (skipOnKey x true s)

/-- EXA1 SKNP (R101). -/
def execSknp (x : Nibble) (s : State) : Out := finish s (skipOnKey x false s)

/-- FX07 LD Vx, DT (R102). -/
def execLdVxDt (x : Nibble) (s : State) : Out := .next (s.setReg x s.dt)

/-- FX0A LD Vx, K (R103): the lowest pressed key, or PC back at the instruction. No flag of its own (10_state.md R26). -/
def execLdVxK (x : Nibble) (s : State) : Out :=
  match s.firstKey with
  | some k => .next (s.setReg x (BitVec.ofNat 8 k))
  | none => .next (s.setPc (s.pc - 2))

/-- FX15 LD DT (R104). -/
def execLdDtVx (x : Nibble) (s : State) : Out := .next (s.setDt (s.reg x))

/-- FX18 LD ST (R105). -/
def execLdStVx (x : Nibble) (s : State) : Out := .next (s.setSt (s.reg x))

end Sys2Proof.Machine
end

