-- ==== Sys2Proof/Machine/Registers.lean ====
section
/-! DEFINITION. The register and arithmetic instructions (43_register_alu.md). Statements run in the order the rule writes
them, each on the state the one before left (00_scope.md R9), so the cases with X or Y = F come out as in R91. -/

namespace Sys2Proof.Machine

/-- 6XNN LD (R79). -/
def execLdVxNn (x : Nibble) (nn : Byte) (s : State) : Out := .next (s.setReg x nn)

/-- 7XNN ADD (R80): no flag. -/
def execAddVxNn (x : Nibble) (nn : Byte) (s : State) : Out := .next (s.setReg x (s.reg x + nn))

/-- 8XY0 LD (R81). -/
def execLdVxVy (x y : Nibble) (s : State) : Out := .next (s.setReg x (s.reg y))

/-- 8XY1 OR (R82): VF is not reset (QUIRK_VF_RESET false; log 13). -/
def execOrVxVy (x y : Nibble) (s : State) : Out := .next (s.setReg x (s.reg x ||| s.reg y))

/-- 8XY2 AND (R83). -/
def execAndVxVy (x y : Nibble) (s : State) : Out := .next (s.setReg x (s.reg x &&& s.reg y))

/-- 8XY3 XOR (R84). -/
def execXorVxVy (x y : Nibble) (s : State) : Out := .next (s.setReg x (s.reg x ^^^ s.reg y))

/-- 8XY4 ADD (R85): V[X] first, then VF. -/
def execAddVxVy (x y : Nibble) (s : State) : Out :=
  .next ((s.setReg x (s.reg x + s.reg y)).setReg vf (carryFlag (s.reg x) (s.reg y)))

/-- `V[0xF] <- flag`, then `V[x] <- value`, the value computed on the state with the flag in it. -/
def flagThenReg (x : Nibble) (flag : Byte) (value : State → Byte) (s : State) : State :=
  (s.setReg vf flag).setReg x (value (s.setReg vf flag))

/-- 8XY5 SUB (R86): VF first, then V[X]. -/
def execSubVxVy (x y : Nibble) (s : State) : Out :=
  .next (flagThenReg x (noBorrowFlag (s.reg x) (s.reg y)) (fun t => t.reg x - t.reg y) s)

/-- 8XY6 SHR (R87): Y is not read. -/
def execShrVx (x : Nibble) (s : State) : Out :=
  .next (flagThenReg x (shiftRightFlag (s.reg x)) (fun t => t.reg x >>> 1) s)

/-- 8XY7 SUBN (R88). -/
def execSubnVxVy (x y : Nibble) (s : State) : Out :=
  .next (flagThenReg x (noBorrowFlag (s.reg y) (s.reg x)) (fun t => t.reg y - t.reg x) s)

/-- 8XYE SHL (R89): Y is not read. -/
def execShlVx (x : Nibble) (s : State) : Out :=
  .next (flagThenReg x (shiftLeftFlag (s.reg x)) (fun t => t.reg x <<< 1) s)

/-- CXNN RND (R90): the draw is a free input (log 4). -/
def execRnd (x : Nibble) (nn : Byte) (s : State) : Out := .next (s.dropDraw.setReg x (s.nextDraw &&& nn))

end Sys2Proof.Machine
end

