-- ==== Sys2Proof/Machine/Cycle.lean ====
section
/-! DEFINITION. The execute_fsm: one STEP (30_encoding.md R59 to R65). -/

namespace Sys2Proof.Machine

/-- `Fetch()`: the bytes at PC and PC + 1, big-endian; PC + 1 is not wrapped (20_memory.md R34, R30). -/
def fetch (s : State) : Except Raise Word :=
  match memRead s s.pc.toNat with
  | .error r => .error r
  | .ok hi =>
    match memRead s (s.pc.toNat + 1) with
    | .error r => .error r
    | .ok lo => .ok (wordOfBytes hi lo)

/-- PC <- a + 2, before the instruction executes (R60). -/
def State.advance (s : State) : State := s.setPc (s.pc + 2)

/-- An UNKNOWN word: nothing but the advance and one diagnostic with the word and its address (R62, 60_exceptions.md R112). -/
def unknownOpcode (w : Word) (s : State) : StepOutput := ⟨.next s.advance, some ⟨w, s.pc⟩⟩

/-- Fetch, advance, decode, execute. A fault of the fetch is recorded against PC (60_exceptions.md R107). -/
def cycle (s : State) : StepOutput :=
  match fetch s with
  | .error r => ⟨.next (takeFault r (some s.pc) s), none⟩
  | .ok w =>
    match decode w with
    | some i => ⟨exec i s.advance, none⟩
    | none => unknownOpcode w s

/-- STEP moves only while Running (R59, 60_exceptions.md R110). -/
def stepOutput (s : State) : StepOutput :=
  match s.status with
  | .running => cycle s
  | .faulted k n a => ⟨.fault (.coreFaulted k n a), none⟩

/-- A word stored big-endian where the next fetch reads it; an address outside the memory is left alone. -/
def State.storeAtPc (s : State) (w : Word) : State :=
  if s.pc.toNat + 1 < Config.memSize then
    (s.setByte s.pc.toNat (hiByte w)).setByte (s.pc.toNat + 1) (loByte w)
  else s

end Sys2Proof.Machine
end

