-- ==== Sys2Proof/Machine/Step.lean ====
section
/-! DEFINITION. The step: one STEP of 30_encoding.md R59, its diagnostic, and a word placed where the next fetch reads it. -/

namespace Sys2Proof.Machine

/-- One STEP. -/
def step (s : State) : Host.Outcome State Fault Refusal := (stepOutput s).outcome

/-- The diagnostic that the STEP from a state emits, if any: an output event, not state (60_exceptions.md R112; log 11). -/
def stepDiag (s : State) : Option Diag := (stepOutput s).diag

/-- The state with the instruction word `w` (numbered as the opcode table numbers it) stored at PC, so that the next step
fetches and runs it. It stands for the host's LOAD of a program (log 10). -/
def State.withFetchWord (s : State) (nbits w : Nat) : State := s.storeAtPc (tableWord nbits w)

end Sys2Proof.Machine
end

