-- ==== Sys2Proof/Machine/HostOps.lean ====
section
/-! DEFINITION. The host's operations (60_exceptions.md R117, R119, R121, R123; 70_reset_and_hazards.md R128 to R130): each
atomic, between steps. RESET is `resetOp` in Ops.lean, STEP is `step`. -/

namespace Sys2Proof.Machine

/-- A timer after one decay: down by 1, floored at 0 (60_exceptions.md R117). -/
def decay (b : Byte) : Byte := if b = 0 then 0 else b - 1

/-- TICK (60_exceptions.md R117). -/
def tick (s : State) : Out := whenRunning s (.next ((s.setDt (decay s.dt)).setSt (decay s.st)))

/-- SET_KEY(k, b) (60_exceptions.md R119). -/
def setKey (k : Nibble) (b : Bool) (s : State) : Out :=
  whenRunning s (.next (s.setKeys (s.key.set k.toNat b k.isLt)))

/-- CLEAR_REDRAW (60_exceptions.md R121). -/
def clearRedraw (s : State) : Out := whenRunning s (.next (s.setRedraw false))

/-- Bytes copied into memory in order from an address on (70_reset_and_hazards.md R129). -/
def State.copyIn (s : State) : Nat → List Byte → State
  | _, [] => s
  | a, b :: l => (s.setByte a b).copyIn (a + 1) l

/-- A rejected image: Faulted(IMAGE_TOO_LARGE, length, none); memory as it was, nothing written (70_reset_and_hazards.md
R129), every other field unspecified (60_exceptions.md R108; log 6). -/
def rejectImage (length : Nat) (s : State) : State :=
  (takeFault ⟨.imageTooLarge, length⟩ none s).setMem s.mem

/-- LOAD(image): the length is checked before any write (70_reset_and_hazards.md R129). -/
def load (image : List Byte) (s : State) : Out :=
  whenRunning s (.next
    (if Config.maxImage < image.length then rejectImage image.length s else s.copyIn Config.progBase image))

/-- STEP with the random byte the host sends for a CXNN (60_exceptions.md R123); a byte not used is dropped. -/
def stepWithDraw (draw : Byte) (s : State) : Out :=
  match step (s.setDraws [draw]) with
  | .next t => .next (t.setDraws [])
  | .fault r => .fault r
  | .refused r => .refused r

/-- The operations by which the host changes the CORE (60_exceptions.md R123). Reads are the projections of State. -/
inductive HostOp where
  | reset
  | load (image : List Byte)
  | step (draw : Byte)
  | tick
  | setKey (k : Nibble) (b : Bool)
  | clearRedraw
deriving DecidableEq, Repr

/-- The CORE with what its host must remember of the launch: whether the CORE is right after RESET, so that LOAD is still
allowed (70_reset_and_hazards.md R130; log 7). -/
structure Session where
  state    : State
  atLaunch : Bool
deriving DecidableEq, Repr

/-- The session right after RESET. -/
def Session.fresh : Session := ⟨State.reset, true⟩

/-- An outcome of the CORE as an outcome of the session; whatever moved, the launch point is past. -/
def Session.after (o : Out) : Host.Outcome Session Fault Refusal :=
  match o with
  | .next s => .next ⟨s, false⟩
  | .fault r => .fault r
  | .refused r => .refused r

/-- One operation of the host. LOAD is refused when the CORE is Running but not right after RESET
(93_implementation_defined.md U12). -/
def Session.apply (op : HostOp) (t : Session) : Host.Outcome Session Fault Refusal :=
  match op with
  | .reset => .next ⟨resetOp t.state, true⟩
  | .load image =>
    Session.after (whenRunning t.state (if t.atLaunch then load image t.state else .refused .loadNotAtLaunch))
  | .step draw => Session.after (stepWithDraw draw t.state)
  | .tick => Session.after (tick t.state)
  | .setKey k b => Session.after (setKey k b t.state)
  | .clearRedraw => Session.after (clearRedraw t.state)

/-- The diagnostic an operation emits: only STEP emits one (60_exceptions.md R123). -/
def Session.diag (op : HostOp) (t : Session) : Option Diag :=
  match op with
  | .step draw => stepDiag (t.state.setDraws [draw])
  | _ => none

/-- A run: operations one after another, until one does not move (70_reset_and_hazards.md R132). -/
def Session.run : List HostOp → Session → Host.Outcome Session Fault Refusal
  | [], t => .next t
  | op :: ops, t =>
    match t.apply op with
    | .next u => Session.run ops u
    | .fault r => .fault r
    | .refused r => .refused r

end Sys2Proof.Machine
end

