-- ==== Sys2Proof/Safety.lean ====
section
/-! DEFINITION. The terms claims are made in: what an instruction leaves unchanged, that it completes, where it faults, the
invariant of the machine, and runs. -/

namespace Sys2Proof.Machine

/-- What a frame lets change. `regs` and `mem` name registers and addresses; `inputs` is the model's own `draws` and
`freeIndex`. Nothing is let change by default. -/
structure Changes where
  regs   : Nibble → Bool := fun _ => false
  mem    : Nat → Bool := fun _ => false
  i      : Bool := false
  pc     : Bool := false
  stack  : Bool := false
  sp     : Bool := false
  dt     : Bool := false
  st     : Bool := false
  pix    : Bool := false
  redraw : Bool := false
  key    : Bool := false
  status : Bool := false
  inputs : Bool := false

/-- From `s` to `t` nothing changes but what `c` lets change: every other register, every other byte of memory read one by
one, every other field. -/
def Frame (c : Changes) (s t : State) : Prop :=
  (∀ r, c.regs r = false → t.reg r = s.reg r) ∧
  (∀ a, c.mem a = false → t.byteAt a = s.byteAt a) ∧
  (c.i = false → t.i = s.i) ∧
  (c.pc = false → t.pc = s.pc) ∧
  (c.stack = false → t.stack = s.stack) ∧
  (c.sp = false → t.sp = s.sp) ∧
  (c.dt = false → t.dt = s.dt) ∧
  (c.st = false → t.st = s.st) ∧
  (c.pix = false → t.pix = s.pix) ∧
  (c.redraw = false → t.redraw = s.redraw) ∧
  (c.key = false → t.key = s.key) ∧
  (c.status = false → t.status = s.status) ∧
  (c.inputs = false → t.draws = s.draws ∧ t.freeIndex = s.freeIndex)

/-- `exec i s` answers a next state, and that state meets `post`. -/
def Completes (i : Instr) (s : State) (post : State → Prop) : Prop :=
  ∃ t, exec i s = .next t ∧ post t

/-- The first address at or above 4096 among the `count` addresses from I on, if there is one: where an instruction that
accesses them in ascending order faults (20_memory.md R31, R32, R33). -/
def firstOutOfRange (s : State) (count : Nat) : Option Raise :=
  if 0 < count ∧ 4096 < s.effAddr count then some ⟨.memOutOfRange, max s.i.toNat 4096⟩ else none

/-- The fault that 60_exceptions.md R106 gives an instruction in a state (PC advanced), or none. -/
def ruledFault (i : Instr) (s : State) : Option Raise :=
  match i with
  | .ret => if s.sp = 0 then some ⟨.stackUnderflow, (s.pc - 2).toNat⟩ else none
  | .call _ => if s.sp = 16 then some ⟨.stackOverflow, (s.pc - 2).toNat⟩ else none
  | .skp x => if 15 < (s.reg x).toNat then some ⟨.keyIndexOutOfRange, (s.reg x).toNat⟩ else none
  | .sknp x => if 15 < (s.reg x).toNat then some ⟨.keyIndexOutOfRange, (s.reg x).toNat⟩ else none
  | .drw _ _ n => firstOutOfRange s n.toNat
  | .ldBVx _ => firstOutOfRange s 3
  | .ldMiVx x => firstOutOfRange s (x.toNat + 1)
  | .ldVxMi x => firstOutOfRange s (x.toNat + 1)
  | .cls | .jp _ | .seVxNn _ _ | .sneVxNn _ _ | .seVxVy _ _ | .ldVxNn _ _ | .addVxNn _ _ | .ldVxVy _ _ | .orVxVy _ _
  | .andVxVy _ _ | .xorVxVy _ _ | .addVxVy _ _ | .subVxVy _ _ | .shrVx _ _ | .subnVxVy _ _ | .shlVx _ _ | .sneVxVy _ _
  | .ldINnn _ | .jpV0 _ | .rnd _ _ | .ldVxDt _ | .ldVxK _ | .ldDtVx _ | .ldStVx _ | .addIVx _ | .ldFVx _ => none

/-- The status a fault leaves, or the status as it was: `origin` is the address of the instruction (60_exceptions.md R107). -/
def statusAfter (r : Option Raise) (origin : Word) (s : State) : Status :=
  match r with
  | some e => .faulted e.kind e.info (some origin)
  | none => s.status

/-- The invariant of the machine. Memory keeps its canonical form; while the CORE is Running, PC is at most 0x10FE and every
live return address is at most 0x1000, so PC never wraps (30_encoding.md R64). -/
def State.Inv (s : State) : Prop :=
  s.mem.wf = true ∧
  (s.status = .running →
    s.pc.toNat ≤ 0x10FE ∧ ∀ k (h : k < 16), k < s.sp.val → (s.stack[k]).toNat ≤ 0x1000)

/-- The word that the next fetch reads (20_memory.md R34). -/
def State.wordAtPc (s : State) : Word := wordOfBytes (s.byteAt s.pc.toNat) (s.byteAt (s.pc.toNat + 1))

/-- The CORE is about to run instruction `i`: Running, both bytes at PC inside memory, and they decode to `i`. -/
def State.AtInstr (s : State) (i : Instr) : Prop :=
  s.status = .running ∧ s.pc.toNat + 1 < 4096 ∧ decode s.wordAtPc = some i

/-- The launch of an image from any session, Faulted or not: RESET, then LOAD(image) (70_reset_and_hazards.md R130, R131). -/
def launch (image : List Byte) (t : Session) : Host.Outcome Session Fault Refusal := Session.run [.reset, .load image] t

/-- The operations of a run after its launch (70_reset_and_hazards.md R130, step 3). -/
def HostOp.inRun : HostOp → Bool
  | .step _ | .tick | .setKey _ _ | .clearRedraw => true
  | .reset | .load _ => false

/-- A run ends well: every operation found the CORE Running and the last state is Running (70_reset_and_hazards.md R132). -/
def EndsWell (ops : List HostOp) (t : Session) : Prop :=
  (∀ op ∈ ops, op.inRun = true) ∧ ∃ u, Session.run ops t = .next u ∧ u.state.status = .running

end Sys2Proof.Machine
end

