-- ==== Sys2Proof/Certificates/Slice0/Obligations.lean ====
section
/-! DEFINITION. The statements for the provers. Each docstring names the rule or section of spec/ it formalises. `exec` runs on
a state whose PC is already the instruction's address plus 2 (30_encoding.md R60). -/

open Sys2Proof Sys2Proof.Machine

/-! ## Encoding -/

/-- Encoding then decoding gives every instruction back, with every operand at every value (30_encoding.md, the opcode map). -/
def Obligations.DecodeOfEncodeIsTheInstruction : Prop :=
  ∀ i : Instr, decode (encode i) = some i

/-- A word that decodes to an instruction is that instruction's encoding: no word has a second spelling. -/
def Obligations.DecodedWordIsItsEncoding : Prop :=
  ∀ (w : Word) (i : Instr), decode w = some i → encode i = w

/-- The two-level dispatch gives the kind of the table's row that the word matches, UNKNOWN if none matches, and at most one
row matches any word (30_encoding.md, Decoder interface and First-level dispatch). -/
def Obligations.DispatchAgreesWithTheOpcodeTable : Prop :=
  ∀ w : Word,
    kindOf w = (match opcodeTable.find? (fun r => r.matches w) with
      | some r => r.kind
      | none => .unknown) ∧
    (opcodeTable.filter (fun r => r.matches w)).length ≤ 1

/-- The words that decode to no instruction are those of the list in 30_encoding.md, The unknown set (that words of
families 0x0, 0x5 and 0x9 outside the patterns are UNKNOWN is the spec's own decision D19). -/
def Obligations.UnknownWordsAreTheListedOnes : Prop :=
  ∀ w : Word, decode w = none ↔
    (fieldF w = 0x0 ∧ w ≠ 0x00E0 ∧ w ≠ 0x00EE) ∨
    (fieldF w = 0x5 ∧ fieldN w ≠ 0) ∨
    (fieldF w = 0x8 ∧ (fieldN w = 0x8 ∨ fieldN w = 0x9 ∨ fieldN w = 0xA ∨ fieldN w = 0xB ∨ fieldN w = 0xC ∨ fieldN w = 0xD ∨
      fieldN w = 0xF)) ∨
    (fieldF w = 0x9 ∧ fieldN w ≠ 0) ∨
    (fieldF w = 0xE ∧ fieldNN w ≠ 0x9E ∧ fieldNN w ≠ 0xA1) ∨
    (fieldF w = 0xF ∧ fieldNN w ≠ 0x07 ∧ fieldNN w ≠ 0x0A ∧ fieldNN w ≠ 0x15 ∧ fieldNN w ≠ 0x18 ∧ fieldNN w ≠ 0x1E ∧
      fieldNN w ≠ 0x29 ∧ fieldNN w ≠ 0x33 ∧ fieldNN w ≠ 0x55 ∧ fieldNN w ≠ 0x65)

/-- Every word's bundle is well-formed (NN = Y ‖ N, NNN = X ‖ Y ‖ N, and the kind's fixed digits in place), and the fields
make up the word (30_encoding.md, Fields). -/
def Obligations.FieldsOfEveryWordFitTogether : Prop :=
  ∀ w : Word, (decodeBundle w).wellFormed = true ∧ w = fieldF w ++ (decodeBundle w).nnn

/-- A few words written out from the patterns decode to what they stand for (sanity; the rows E-1 to E-18 of
95_test_vectors.md). -/
def Obligations.WrittenOutWordsDecode : Prop :=
  decode 0b0000000011100000 = some .cls ∧ decode 0b1010101111001101 = some (.ldINnn 0xBCD) ∧
  decode 0b1101000100101111 = some (.drw 1 2 0xF) ∧ decode 0b0101000100100000 = some (.seVxVy 1 2) ∧
  decode 0b0101000100100001 = none ∧ decode 0b1000000100101110 = some (.shlVx 1 2) ∧
  decode 0b1110000110011110 = some (.skp 1) ∧ decode 0b1111000100001010 = some (.ldVxK 1)

/-! ## Memory -/

/-- Two canonical memories that read alike at every address are equal (the model's own convention, log 8: memory is held in
one form). -/
def Obligations.CanonicalMemoriesThatReadAlikeAreEqual : Prop :=
  ∀ m m' : Memory, m.wf = true → m'.wf = true → (∀ a, m.readAt a = m'.readAt a) → m = m'

/-! ## The step -/

/-- A step runs the decoded instruction: exec of it on the state with PC advanced by 2, and no diagnostic (30_encoding.md, The
STEP sequence and PC advance before execute). -/
def Obligations.StepRunsTheDecodedInstruction : Prop :=
  ∀ (s : State) (i : Instr), s.AtInstr i → step s = exec i (s.setPc (s.pc + 2)) ∧ stepDiag s = none

/-- The fetch of a Running CORE at PC = 0xFFF faults with info 0x1000, at PC ≥ 0x1000 with info PC, and below it reads the two
bytes big-endian, the byte at PC high (20_memory.md, Instruction fetch and byte order; that PC + 1 is not wrapped is the spec's
own decision D22). -/
def Obligations.FetchIsBigEndianOrFaults : Prop :=
  ∀ s : State,
    (s.pc.toNat < 0xFFF → fetch s = .ok (s.byteAt s.pc.toNat ++ s.byteAt (s.pc.toNat + 1))) ∧
    (s.status = .running → s.pc.toNat = 0xFFF →
      ∃ t, step s = .next t ∧ t.status = .faulted .memOutOfRange 0x1000 (some s.pc)) ∧
    (s.status = .running → 0x1000 ≤ s.pc.toNat →
      ∃ t, step s = .next t ∧ t.status = .faulted .memOutOfRange s.pc.toNat (some s.pc))

/-- An UNKNOWN word changes nothing but PC, which is past the word, and emits one diagnostic with the word and its address
(30_encoding.md, Unknown opcode; the payload is the spec's own decision D18). -/
def Obligations.UnknownWordOnlyAdvances : Prop :=
  ∀ s : State, s.status = .running → s.pc.toNat + 1 < 4096 → decode s.wordAtPc = none →
    step s = .next (s.setPc (s.pc + 2)) ∧ stepDiag s = some ⟨s.wordAtPc, s.pc⟩

/-- A step of a Running CORE completes, still Running, or faults against its fetch address; it never stops, and a diagnostic
comes only from a step that completed (30_encoding.md, Outcome of a step; 60_exceptions.md, Priority). -/
def Obligations.RunningStepCompletesOrFaults : Prop :=
  ∀ s : State, s.status = .running →
    ∃ t, step s = .next t ∧
      (t.status = .running ∨ (stepDiag s = none ∧ ∃ k info, t.status = .faulted k info (some s.pc)))

/-- Every instruction answers a next state, and it faults exactly where the fault table says, with its kind and info, against
the instruction's address; everywhere else the status stays (60_exceptions.md, Fault kinds and Fault entry). The codes, infos,
stack and key faults are the spec's own decisions D2, D3, D5, D6; that DXYN reads no row for N = 0 and reads clipped rows are
D7 and D9; that no address wraps before its check is D22 (log 18). -/
def Obligations.InstructionsFaultExactlyWhereRuled : Prop :=
  ∀ (i : Instr) (s : State), Completes i s fun t => t.status = statusAfter (ruledFault i s) (s.pc - 2) s

/-! ## Who writes what -/

/-- SET_KEY(k, b) sets key[k] to b and nothing else, in a Running CORE, and no instruction writes the keypad
(60_exceptions.md R119). -/
def Obligations.OnlySetKeyWritesTheKeypad : Prop :=
  (∀ (k : Nibble) (b : Bool) (s : State), s.status = .running →
    ∃ t, setKey k b s = .next t ∧
      (∀ j (h : j < 16), t.key[j] = if j = k.toNat then b else s.key[j]) ∧
      Frame { key := true } s t) ∧
  (∀ (i : Instr) (s t : State), ruledFault i s = none → exec i s = .next t → t.key = s.key)

/-- I is written only by ANNN, FX1E and FX29; the stack and SP only by 2NNN and 00EE; DT only by FX15 and ST only by FX18
(10_state.md, index_register, call_stack, timer_countdown_unit). -/
def Obligations.SpecialRegistersHaveOnlyTheirWriters : Prop :=
  ∀ (i : Instr) (s t : State), ruledFault i s = none → exec i s = .next t →
    (i.kind ≠ .ldINnn → i.kind ≠ .addIVx → i.kind ≠ .ldFVx → t.i = s.i) ∧
    (i.kind ≠ .call → i.kind ≠ .ret → t.stack = s.stack ∧ t.sp = s.sp) ∧
    (i.kind ≠ .ldDtVx → t.dt = s.dt) ∧
    (i.kind ≠ .ldStVx → t.st = s.st)

/-- The pixel buffer and the redraw flag are written only by 00E0 and DXYN, and no instruction clears the redraw flag
(10_state.md, pixel_buffer). -/
def Obligations.ScreenIsWrittenOnlyByClearAndDraw : Prop :=
  ∀ (i : Instr) (s t : State), ruledFault i s = none → exec i s = .next t →
    (i.kind ≠ .cls → i.kind ≠ .drw → t.pix = s.pix ∧ t.redraw = s.redraw) ∧
    (s.redraw = true → t.redraw = true)

/-- No instruction but FX33 and FX55 changes a byte of memory, and these only the bytes they store to: three from I on, and
X + 1 from I on (20_memory.md, Access widths). -/
def Obligations.MemoryIsWrittenOnlyByTheStores : Prop :=
  ∀ (i : Instr) (s t : State), ruledFault i s = none → exec i s = .next t →
    ∀ a, t.byteAt a = s.byteAt a ∨
      (∃ x, i = .ldBVx x ∧ s.effAddr 0 ≤ a ∧ a < s.effAddr 3) ∨
      (∃ x, i = .ldMiVx x ∧ s.effAddr 0 ≤ a ∧ a < s.effAddr (x.toNat + 1))

/-- VF is written as a flag only by 8XY4 to 8XY7, 8XYE and DXYN; any other instruction leaves VF alone unless its X field is F
(10_state.md R15). -/
def Obligations.FlagIsWrittenOnlyByItsWriters : Prop :=
  ∀ (i : Instr) (s t : State), ruledFault i s = none → exec i s = .next t →
    i.kind ≠ .addVxVy → i.kind ≠ .subVxVy → i.kind ≠ .shrVx → i.kind ≠ .subnVxVy → i.kind ≠ .shlVx → i.kind ≠ .drw →
    t.reg vf = s.reg vf ∨
      (∃ nn, i = .ldVxNn vf nn ∨ i = .addVxNn vf nn ∨ i = .rnd vf nn) ∨
      (∃ y, i = .ldVxVy vf y ∨ i = .orVxVy vf y ∨ i = .andVxVy vf y ∨ i = .xorVxVy vf y) ∨
      i = .ldVxDt vf ∨ i = .ldVxK vf ∨ i = .ldVxMi vf

/-! ## The invariant -/

/-- The state after RESET meets the invariant (70_reset_and_hazards.md, RESET; 30_encoding.md, PC never wraps). That memory is
in its canonical form is about the model's own form of memory (log 8), not a rule of the spec. -/
def Obligations.ResetMeetsTheInvariant : Prop := State.reset.Inv

/-- Every step keeps the invariant: memory canonical, PC at most 0x10FE and live return addresses at most 0x1000 while Running
(30_encoding.md, PC never wraps; the canonical form is the model's own, log 8). -/
def Obligations.EveryStepKeepsTheInvariant : Prop :=
  ∀ s t : State, s.Inv → step s = .next t → t.Inv

/-- Every operation of the host keeps the invariant (60_exceptions.md, Host interface; 30_encoding.md, PC never wraps). That
memory is in its canonical form is about the model's own form of memory (log 8), not a rule of the spec. -/
def Obligations.EveryHostOperationKeepsTheInvariant : Prop :=
  ∀ (op : HostOp) (t u : Session), t.state.Inv → t.apply op = .next u → u.state.Inv

/-! ## The host's operations -/

/-- TICK of a Running CORE takes each timer down by one, floored at 0, each only if it was above 0, and changes nothing else
(60_exceptions.md, TICK: timer decay). A Faulted CORE has no move: the spec's own decisions D2 and D31, which the model presents
as no next state (log 2, DESIGN CHOICE). -/
def Obligations.TickDecaysBothTimers : Prop :=
  ∀ s : State,
    (s.status = .running →
      ∃ t, tick s = .next t ∧ t.dt.toNat = s.dt.toNat - 1 ∧ t.st.toNat = s.st.toNat - 1 ∧
        Frame { dt := true, st := true } s t) ∧
    (s.status ≠ .running → ∀ t, tick s ≠ .next t)

/-- CLEAR_REDRAW sets redraw to false and nothing else; 00E0 and DXYN, where it completes, set it (60_exceptions.md R121). -/
def Obligations.RedrawIsSetByDrawingAndClearedByTheHost : Prop :=
  ∀ s : State,
    (s.status = .running → ∃ t, clearRedraw s = .next t ∧ t.redraw = false ∧ Frame { redraw := true } s t) ∧
    Completes .cls s (fun t => t.redraw = true) ∧
    (∀ x y n, ruledFault (.drw x y n) s = none → Completes (.drw x y n) s fun t => t.redraw = true)

/-- RESET works in any status and leaves every field of the spec's record at its reset value (70_reset_and_hazards.md, RESET;
the values of I, redraw, key and status are the spec's own decisions D14, D15, D16, D2, the glyph bytes D12). -/
def Obligations.ResetLeavesTheResetState : Prop :=
  ∀ t : Session, ∃ u, t.apply .reset = .next u ∧
    (∀ a, u.state.byteAt a = if 0x050 ≤ a ∧ a < 0x0A0 then glyphData.getD (a - 0x050) 0 else 0) ∧
    (∀ r, u.state.reg r = 0) ∧ u.state.i = 0 ∧ u.state.pc = 0x200 ∧
    (∀ k (h : k < 16), u.state.stack[k] = 0) ∧ u.state.sp = 0 ∧ u.state.dt = 0 ∧ u.state.st = 0 ∧
    (∀ row col, u.state.pixel row col = false) ∧ u.state.redraw = false ∧
    (∀ k (h : k < 16), u.state.key[k] = false) ∧ u.state.status = .running

/-- The launch, from any session: RESET, then LOAD of an image of at most 3584 bytes, leaves the image from 0x200 on, every other
byte as after RESET, and every other field of the spec's record as after RESET (70_reset_and_hazards.md, LOAD and Launch state).
That LOAD runs right after RESET, accepts these lengths and writes the image's bytes only is the spec's own decision D20 (logs 7
and 18); that RESET empties the handed-over draws and keeps the free-value counter is the model's (log 14). -/
def Obligations.LaunchPlacesTheImage : Prop :=
  ∀ (image : List Byte) (t : Session), image.length ≤ 3584 →
    ∃ u, launch image t = .next u ∧
      (∀ k (h : k < image.length), u.state.byteAt (0x200 + k) = image[k]) ∧
      Frame { mem := fun a => decide (0x200 ≤ a ∧ a < 0x200 + image.length), inputs := true } State.reset u.state ∧
      u.state.draws = [] ∧ u.state.freeIndex = t.state.freeIndex

/-- An image of more than 3584 bytes is rejected: Faulted(IMAGE_TOO_LARGE, length, none), with no byte of memory written
(70_reset_and_hazards.md, LOAD). The check and its fault are the spec's own decisions D20 and D3; that memory stays although
a fault leaves the other fields unspecified is the model's reading of two rules (log 6, DEDUCED). -/
def Obligations.OversizedImageIsRejected : Prop :=
  ∀ (image : List Byte) (s : State), s.status = .running → 3584 < image.length →
    ∃ t, load image s = .next t ∧ t.status = .faulted .imageTooLarge image.length none ∧ ∀ a, t.byteAt a = s.byteAt a

/-- A Faulted CORE has no move: every operation but RESET answers the stop that carries the fault, and RESET leads back to
Running (60_exceptions.md, A Faulted CORE does not move; the spec's own decisions D2, D31; presented as in log 2). -/
def Obligations.FaultedCoreDoesNotMoveUntilReset : Prop :=
  ∀ (t : Session) (k : FaultKind) (info : Nat) (origin : Option Word), t.state.status = .faulted k info origin →
    (∀ op, op ≠ .reset → t.apply op = .fault (.coreFaulted k info origin)) ∧
    ∃ u, t.apply .reset = .next u ∧ u.state.status = .running

/-- After any operation but RESET that moved and left the CORE Running, LOAD is refused (70_reset_and_hazards.md, Boot
sequence; the spec's own decision D20 and treatment U12; log 7). -/
def Obligations.LoadIsRefusedAfterTheLaunch : Prop :=
  ∀ (op : HostOp) (t u : Session) (image : List Byte), op ≠ .reset → t.apply op = .next u → u.state.status = .running →
    u.apply (.load image) = .refused .loadNotAtLaunch

/-! ## Display -/

/-- 00E0: every pixel off, redraw set, nothing else (41_display.md, CLS). -/
def Obligations.ClearScreenTurnsEveryPixelOff : Prop :=
  ∀ s : State, Completes .cls s fun t =>
    (∀ row col, t.pixel row col = false) ∧ t.redraw = true ∧ Frame { pix := true, redraw := true } s t

/-- The sprite's pixel at a row and column of the screen: the origin wraps, the body does not, and what falls outside the
screen has no pixel here (41_display.md R68). -/
def spritePixel (s : State) (x y n : Nibble) (row col : Nat) : Bool :=
  let cx := (s.reg x).toNat % 64
  let cy := (s.reg y).toNat % 32
  decide (cy ≤ row ∧ row < cy + n.toNat ∧ cx ≤ col ∧ col < cx + 8) &&
    (s.byteAt (s.effAddr (row - cy))).getLsbD (7 - (col - cx))

/-- DXYN where its N bytes are in memory (or N = 0): every pixel of the screen is XORed with the sprite's pixel, clipped at the
right and bottom edges; redraw set; only VF besides (41_display.md, DRW and Sprite geometry; N = 0, the order of the reads and
the reading of clipped rows are the spec's own decisions D7, D8, D9). -/
def Obligations.DrawXorsTheClippedSprite : Prop :=
  ∀ (x y n : Nibble) (s : State), n = 0 ∨ s.effAddr n.toNat ≤ 4096 →
    Completes (.drw x y n) s fun t =>
      (∀ row col, row < 32 → col < 64 → t.pixel row col = (s.pixel row col ^^ spritePixel s x y n row col)) ∧
      t.redraw = true ∧ Frame { regs := fun r => r == vf, pix := true, redraw := true } s t

/-- DXYN's flag: VF ends as 1 if a set bit of the sprite met a pixel that was on, and as 0 otherwise (41_display.md, DRW). That
N = 0 leaves VF at 0, and that a coordinate in VF is read before VF is cleared, are the spec's own decisions D7 and D8
(log 18). -/
def Obligations.DrawReportsCollisions : Prop :=
  ∀ (x y n : Nibble) (s : State), n = 0 ∨ s.effAddr n.toNat ≤ 4096 →
    Completes (.drw x y n) s fun t =>
      ((∃ row col, row < 32 ∧ col < 64 ∧ spritePixel s x y n row col = true ∧ s.pixel row col = true) → t.reg vf = 1) ∧
      ((∀ row col, row < 32 → col < 64 → spritePixel s x y n row col = true → s.pixel row col = false) → t.reg vf = 0)

/-- After 00E0 the first draw reports VF = 0 (41_display.md, CLS, corner cases; for N = 0 by the spec's own decision D7,
log 18). -/
def Obligations.DrawAfterClearReportsNoCollision : Prop :=
  ∀ (x y n : Nibble) (s t : State), n = 0 ∨ s.effAddr n.toNat ≤ 4096 → exec .cls s = .next t →
    Completes (.drw x y n) t fun u => u.reg vf = 0

/-- Drawing the same sprite twice at the same place restores the pixel buffer (41_display.md, DRW, corner cases; the place is
the same because X and Y are not F; for N = 0 nothing is drawn, the spec's own decision D7, log 18). -/
def Obligations.DrawingTwiceRestoresTheScreen : Prop :=
  ∀ (x y n : Nibble) (s t : State), x ≠ vf → y ≠ vf → n = 0 ∨ s.effAddr n.toNat ≤ 4096 → exec (.drw x y n) s = .next t →
    Completes (.drw x y n) t fun u => u.pix = s.pix

/-! ## Control flow -/

/-- 00EE with a live slot: PC from the last one, SP down by one, the slots kept, nothing else (42_control_flow.md, RET; that
the popped slot keeps its value is the spec's own decision D27). -/
def Obligations.ReturnPopsTheLastAddress : Prop :=
  ∀ s : State, s.sp ≠ 0 →
    Completes .ret s fun t =>
      (∀ k (h : k < 16), k + 1 = s.sp.val → t.pc = s.stack[k]) ∧ t.sp.val + 1 = s.sp.val ∧
      Frame { pc := true, sp := true } s t

/-- 2NNN with a free slot: the advanced PC goes to slot SP, SP goes up by one, PC becomes NNN, nothing else
(42_control_flow.md, CALL). -/
def Obligations.CallPushesTheAdvancedPc : Prop :=
  ∀ (nnn : Addr) (s : State), s.sp.val < 16 →
    Completes (.call nnn) s fun t =>
      (∀ k (h : k < 16), t.stack[k] = if k = s.sp.val then s.pc else s.stack[k]) ∧
      t.sp.val = s.sp.val + 1 ∧ t.pc.toNat = nnn.toNat ∧ Frame { pc := true, stack := true, sp := true } s t

/-- 1NNN sets PC to NNN; nothing else changes (42_control_flow.md R70). -/
def Obligations.JumpSetsPc : Prop :=
  ∀ (nnn : Addr) (s : State),
    Completes (.jp nnn) s fun t => t.pc.toNat = nnn.toNat ∧ Frame { pc := true } s t

/-- BNNN sets PC to NNN + V[0], with no wrap; nothing else changes (42_control_flow.md R76). -/
def Obligations.JumpWithOffsetAddsV0 : Prop :=
  ∀ (nnn : Addr) (s : State),
    Completes (.jpV0 nnn) s fun t => t.pc.toNat = nnn.toNat + (s.reg 0).toNat ∧ Frame { pc := true } s t

/-- The four register skips: PC moves by 2 more exactly when the condition holds; nothing else changes (42_control_flow.md R72
to R75). -/
def Obligations.SkipsFollowTheirConditions : Prop :=
  ∀ (x y : Nibble) (nn : Byte) (s : State),
    Completes (.seVxNn x nn) s
      (fun t => t.pc = (if s.reg x = nn then s.pc + 2 else s.pc) ∧ Frame { pc := true } s t) ∧
    Completes (.sneVxNn x nn) s
      (fun t => t.pc = (if s.reg x ≠ nn then s.pc + 2 else s.pc) ∧ Frame { pc := true } s t) ∧
    Completes (.seVxVy x y) s
      (fun t => t.pc = (if s.reg x = s.reg y then s.pc + 2 else s.pc) ∧ Frame { pc := true } s t) ∧
    Completes (.sneVxVy x y) s
      (fun t => t.pc = (if s.reg x ≠ s.reg y then s.pc + 2 else s.pc) ∧ Frame { pc := true } s t)

/-- A return from a state with the stack that a call left resumes after the call, at the call's depth (42_control_flow.md, CALL
and RET). -/
def Obligations.ReturnResumesAfterTheCall : Prop :=
  ∀ (nnn : Addr) (s t t' : State), s.sp.val < 16 → exec (.call nnn) s = .next t → t'.stack = t.stack → t'.sp = t.sp →
    Completes .ret t' fun u => u.pc = s.pc ∧ u.sp = s.sp

/-- 1NNN at address NNN is a fixed point of STEP: no field changes (30_encoding.md, No halt instruction). -/
def Obligations.JumpToItselfIsAFixedPoint : Prop :=
  ∀ (nnn : Addr) (s : State), s.AtInstr (.jp nnn) → nnn.toNat = s.pc.toNat → step s = .next s

/-! ## Registers and arithmetic -/

/-- 6XNN and 8XY0: V[X] becomes NN, or V[Y]; nothing else changes (43_register_alu.md R79, R81). -/
def Obligations.LoadsSetOneRegister : Prop :=
  ∀ (x y : Nibble) (nn : Byte) (s : State),
    Completes (.ldVxNn x nn) s (fun t => t.reg x = nn ∧ Frame { regs := fun r => r == x } s t) ∧
    Completes (.ldVxVy x y) s (fun t => t.reg x = s.reg y ∧ Frame { regs := fun r => r == x } s t)

/-- 7XNN: V[X] becomes the sum modulo 256; nothing else changes, VF not unless X = F (43_register_alu.md, ADD Vx, nn). -/
def Obligations.AddImmediateWrapsWithoutFlag : Prop :=
  ∀ (x : Nibble) (nn : Byte) (s : State),
    Completes (.addVxNn x nn) s fun t =>
      (t.reg x).toNat = ((s.reg x).toNat + nn.toNat) % 256 ∧ Frame { regs := fun r => r == x } s t

/-- 8XY1, 8XY2, 8XY3: each bit of V[X]; nothing else changes, VF not unless X = F (43_register_alu.md, OR, AND, XOR; that VF is
not reset is the spec's own decision D29). -/
def Obligations.LogicWorksBitByBit : Prop :=
  ∀ (x y : Nibble) (s : State),
    Completes (.orVxVy x y) s (fun t =>
      (∀ k, (t.reg x).getLsbD k = ((s.reg x).getLsbD k || (s.reg y).getLsbD k)) ∧ Frame { regs := fun r => r == x } s t) ∧
    Completes (.andVxVy x y) s (fun t =>
      (∀ k, (t.reg x).getLsbD k = ((s.reg x).getLsbD k && (s.reg y).getLsbD k)) ∧ Frame { regs := fun r => r == x } s t) ∧
    Completes (.xorVxVy x y) s (fun t =>
      (∀ k, (t.reg x).getLsbD k = ((s.reg x).getLsbD k ^^ (s.reg y).getLsbD k)) ∧ Frame { regs := fun r => r == x } s t)

/-- 8XY4, for every X and Y: VF ends as 1 if the sum exceeds 255 and 0 otherwise, and, for X ≠ F, V[X] is the sum modulo 256;
nothing else changes (43_register_alu.md, ADD Vx, Vy). The results for X or Y = F are the spec's own decision D10 (log 18). -/
def Obligations.AddReportsTheCarry : Prop :=
  ∀ (x y : Nibble) (s : State),
    Completes (.addVxVy x y) s fun t =>
      (x ≠ vf → (t.reg x).toNat = ((s.reg x).toNat + (s.reg y).toNat) % 256) ∧
      t.reg vf = (if 255 < (s.reg x).toNat + (s.reg y).toNat then 1 else 0) ∧
      Frame { regs := fun r => r == x || r == vf } s t

/-- 8XY5 and 8XY7 for X and Y other than F (the cases with F are in FlagRegisterAsOperand): V[X] is the difference modulo 256,
VF is 1 if there is no borrow and 0 otherwise; nothing else changes (43_register_alu.md, SUB and SUBN). -/
def Obligations.SubtractionsReportNoBorrow : Prop :=
  ∀ (x y : Nibble) (s : State), x ≠ vf → y ≠ vf →
    Completes (.subVxVy x y) s (fun t =>
      (t.reg x).toNat = ((s.reg x).toNat + 256 - (s.reg y).toNat) % 256 ∧
      t.reg vf = (if (s.reg y).toNat ≤ (s.reg x).toNat then 1 else 0) ∧
      Frame { regs := fun r => r == x || r == vf } s t) ∧
    Completes (.subnVxVy x y) s (fun t =>
      (t.reg x).toNat = ((s.reg y).toNat + 256 - (s.reg x).toNat) % 256 ∧
      t.reg vf = (if (s.reg x).toNat ≤ (s.reg y).toNat then 1 else 0) ∧
      Frame { regs := fun r => r == x || r == vf } s t)

/-- 8XY6 and 8XYE for X other than F and every Y, which is ignored: V[X] is halved, or doubled modulo 256, and VF is the bit
shifted out; nothing else changes (43_register_alu.md, SHR and SHL). -/
def Obligations.ShiftsReportTheBitShiftedOut : Prop :=
  ∀ (x y : Nibble) (s : State), x ≠ vf →
    Completes (.shrVx x y) s (fun t =>
      (t.reg x).toNat = (s.reg x).toNat / 2 ∧ (t.reg vf).toNat = (s.reg x).toNat % 2 ∧
      Frame { regs := fun r => r == x || r == vf } s t) ∧
    Completes (.shlVx x y) s (fun t =>
      (t.reg x).toNat = (s.reg x).toNat * 2 % 256 ∧ (t.reg vf).toNat = (s.reg x).toNat / 128 ∧
      Frame { regs := fun r => r == x || r == vf } s t)

/-- `p - q` modulo 256 on numbers below 256. -/
def diff256 (p q : Nat) : Nat := (p + 256 - q) % 256

/-- The rows 8XY4 to 8XYE of the table for VF as operand or destination (43_register_alu.md, VF as operand and destination; the
sequential reading is the spec's own decision D10). `o` is VF before. Registers not named are unchanged. -/
def Obligations.FlagRegisterAsOperand : Prop :=
  ∀ (x y : Nibble) (s : State), x ≠ vf → y ≠ vf →
    let o := (s.reg vf).toNat
    let vx := (s.reg x).toNat
    let vy := (s.reg y).toNat
    let bit (c : Bool) : Nat := if c then 1 else 0
    let onlyVf (t : State) (value : Nat) : Prop := (t.reg vf).toNat = value ∧ Frame { regs := fun r => r == vf } s t
    let both (t : State) (flag value : Nat) : Prop :=
      (t.reg vf).toNat = flag ∧ (t.reg x).toNat = value ∧ Frame { regs := fun r => r == x || r == vf } s t
    Completes (.addVxVy vf y) s (fun t => onlyVf t (bit (255 < o + vy))) ∧
    Completes (.addVxVy x vf) s (fun t => both t (bit (255 < vx + o)) ((vx + o) % 256)) ∧
    Completes (.addVxVy vf vf) s (fun t => onlyVf t (bit (128 ≤ o))) ∧
    Completes (.subVxVy vf y) s (fun t => onlyVf t (diff256 (bit (vy ≤ o)) vy)) ∧
    Completes (.subVxVy x vf) s (fun t => both t (bit (o ≤ vx)) (diff256 vx (bit (o ≤ vx)))) ∧
    Completes (.subVxVy vf vf) s (fun t => onlyVf t 0) ∧
    Completes (.shrVx vf y) s (fun t => onlyVf t 0) ∧
    Completes (.shrVx vf vf) s (fun t => onlyVf t 0) ∧
    Completes (.subnVxVy vf y) s (fun t => onlyVf t (diff256 vy (bit (o ≤ vy)))) ∧
    Completes (.subnVxVy x vf) s (fun t => both t (bit (vx ≤ o)) (diff256 (bit (vx ≤ o)) vx)) ∧
    Completes (.subnVxVy vf vf) s (fun t => onlyVf t 0) ∧
    Completes (.shlVx vf y) s (fun t => onlyVf t (2 * (o / 128))) ∧
    Completes (.shlVx vf vf) s (fun t => onlyVf t (2 * (o / 128)))

/-- CXNN: V[X] is the draw masked with NN, whatever the draw; a draw handed over is used up, and without one the value is free;
nothing but V[X] and the model's own input fields changes. The host's STEP with a draw hands that byte to the CXNN it runs; a
STEP that runs no CXNN does not depend on the draw; none is kept for a later STEP (43_register_alu.md, RND; 60_exceptions.md,
Host interface). The free input is the spec's own decision D21; how plain data carries it is the model's (log 4). -/
def Obligations.RandomIsTheDrawMasked : Prop :=
  (∀ (x : Nibble) (nn : Byte) (s : State),
    Completes (.rnd x nn) s (fun t =>
      t.reg x = s.nextDraw &&& nn ∧ Frame { regs := fun r => r == x, inputs := true } s t) ∧
    (∀ (d : Byte) (l : List Byte), s.draws = d :: l →
      Completes (.rnd x nn) s fun t => t.reg x = d &&& nn ∧ t.draws = l ∧ t.freeIndex = s.freeIndex) ∧
    Completes (.rnd x 0) s (fun t => t.reg x = 0)) ∧
  (∀ (x : Nibble) (nn d : Byte) (t : Session), t.state.AtInstr (.rnd x nn) →
    ∃ u, t.apply (.step d) = .next u ∧ u.state.reg x = d &&& nn ∧ u.state.pc = t.state.pc + 2 ∧
      u.state.freeIndex = t.state.freeIndex ∧
      Frame { regs := fun r => r == x, pc := true, inputs := true } t.state u.state) ∧
  (∀ (d e : Byte) (t : Session), (∀ x nn, ¬ t.state.AtInstr (.rnd x nn)) → t.apply (.step d) = t.apply (.step e)) ∧
  (∀ (d : Byte) (t u : Session), t.apply (.step d) = .next u → u.state.draws = [])

/-- The document's first property, 6XNN with a, 6YNN with b, 8XY4 leave V[X] = (a + b) mod 256 and VF = 1 iff a + b > 255, holds
for all a, b and states exactly when X ≠ Y and X ≠ F (43_register_alu.md, ADD Vx, Vy, example; 90_conflicts.md C11; the failing
case X = F rests on the spec's own decision D10, log 18). -/
def Obligations.LoadLoadAddGivesSumAndCarry : Prop :=
  ∀ x y : Nibble,
    (∀ (a b : Byte) (s : State),
      Completes (.ldVxNn x a) s fun t =>
        Completes (.ldVxNn y b) t fun u =>
          Completes (.addVxVy x y) u fun w =>
            (w.reg x).toNat = (a.toNat + b.toNat) % 256 ∧ (w.reg vf = 1 ↔ 255 < a.toNat + b.toNat)) ↔
    x ≠ y ∧ x ≠ vf

/-! ## Index register and memory -/

/-- ANNN: I becomes NNN; FX29: I becomes 0x050 + 5·V[X], not masked; nothing else changes (44_index_memory.md R92, R94). -/
def Obligations.IndexLoadsSetI : Prop :=
  ∀ (nnn : Addr) (x : Nibble) (s : State),
    Completes (.ldINnn nnn) s (fun t => t.i.toNat = nnn.toNat ∧ Frame { i := true } s t) ∧
    Completes (.ldFVx x) s (fun t => t.i.toNat = 0x050 + 5 * (s.reg x).toNat ∧ Frame { i := true } s t)

/-- FX1E: I becomes the sum modulo 2^16, no flag, nothing else changes (44_index_memory.md, ADD I, Vx; the width is the spec's
own decision D11). -/
def Obligations.AddToIndexWrapsAtSixteenBits : Prop :=
  ∀ (x : Nibble) (s : State),
    Completes (.addIVx x) s fun t => t.i.toNat = (s.i.toNat + (s.reg x).toNat) % 65536 ∧ Frame { i := true } s t

/-- FX33: the three digits at I, I + 1, I + 2, nothing else changed; or, if one of these is 4096 or above, a fault with the first
such address (44_index_memory.md R95). -/
def Obligations.BcdStoresThreeDigits : Prop :=
  ∀ (x : Nibble) (s : State),
    (s.effAddr 2 < 4096 →
      Completes (.ldBVx x) s fun t =>
        (t.byteAt (s.effAddr 0)).toNat = (s.reg x).toNat / 100 ∧
        (t.byteAt (s.effAddr 1)).toNat = (s.reg x).toNat / 10 % 10 ∧
        (t.byteAt (s.effAddr 2)).toNat = (s.reg x).toNat % 10 ∧
        Frame { mem := fun a => decide (s.effAddr 0 ≤ a ∧ a < s.effAddr 3) } s t) ∧
    (4096 ≤ s.effAddr 2 →
      Completes (.ldBVx x) s fun t => t.status = .faulted .memOutOfRange (max s.i.toNat 4096) (some (s.pc - 2)))

/-- FX55: V[k] at I + k for k = 0..X, I and every other byte unchanged; or, if one of these addresses is 4096 or above, a fault
with the first such address (44_index_memory.md R96). -/
def Obligations.StoreCopiesRegistersToMemory : Prop :=
  ∀ (x : Nibble) (s : State),
    (s.effAddr x.toNat < 4096 →
      Completes (.ldMiVx x) s fun t =>
        (∀ k, k ≤ x.toNat → t.byteAt (s.effAddr k) = s.reg (regIndex k)) ∧
        Frame { mem := fun a => decide (s.effAddr 0 ≤ a ∧ a < s.effAddr (x.toNat + 1)) } s t) ∧
    (4096 ≤ s.effAddr x.toNat →
      Completes (.ldMiVx x) s fun t => t.status = .faulted .memOutOfRange (max s.i.toNat 4096) (some (s.pc - 2)))

/-- FX65: V[k] from I + k for k = 0..X, every register above X, I and memory unchanged; or, if one of these addresses is 4096 or
above, a fault with the first such address (44_index_memory.md R97). -/
def Obligations.LoadCopiesMemoryToRegisters : Prop :=
  ∀ (x : Nibble) (s : State),
    (s.effAddr x.toNat < 4096 →
      Completes (.ldVxMi x) s fun t =>
        (∀ k, k ≤ x.toNat → t.reg (regIndex k) = s.byteAt (s.effAddr k)) ∧
        Frame { regs := fun r => decide (r.toNat ≤ x.toNat) } s t) ∧
    (4096 ≤ s.effAddr x.toNat →
      Completes (.ldVxMi x) s fun t => t.status = .faulted .memOutOfRange (max s.i.toNat 4096) (some (s.pc - 2)))

/-- The round trip: FX55, then FX65 from any state with the same I and the same stored bytes, whatever its registers, restores
V[0..X] (44_index_memory.md, No auto-increment, and the round-trip law). -/
def Obligations.StoreThenLoadRestoresTheRegisters : Prop :=
  ∀ (x : Nibble) (s t t' : State), s.effAddr x.toNat < 4096 → exec (.ldMiVx x) s = .next t → t'.i = t.i →
    (∀ k, k ≤ x.toNat → t'.byteAt (s.effAddr k) = t.byteAt (s.effAddr k)) →
    Completes (.ldVxMi x) t' fun u => ∀ k, k ≤ x.toNat → u.reg (regIndex k) = s.reg (regIndex k)

/-- Self-modifying code: a fetch from two bytes that FX55 stored reads the registers it stored, big-endian, with no fence
(20_memory.md, Instruction-fetch coherence). -/
def Obligations.StoredBytesAreFetched : Prop :=
  ∀ (x : Nibble) (s t : State) (k : Nat), s.effAddr x.toNat < 4096 → k < x.toNat → exec (.ldMiVx x) s = .next t →
    fetch (t.setPc (BitVec.ofNat 16 (s.effAddr k))) = .ok (wordOfBytes (s.reg (regIndex k)) (s.reg (regIndex (k + 1))))

/-! ## Keypad and timers -/

/-- EX9E and EXA1 with V[X] at most 15: PC moves by 2 more exactly when the key is down, or up; nothing else changes
(45_keypad_timers.md, Keypad index, SKP, SKNP; above 15 they fault, the spec's own decision D6: InstructionsFaultExactlyWhereRuled). -/
def Obligations.KeySkipsFollowTheKey : Prop :=
  ∀ (x : Nibble) (s : State) (h : (s.reg x).toNat < 16),
    Completes (.skp x) s (fun t =>
      t.pc = (if s.key[(s.reg x).toNat] = true then s.pc + 2 else s.pc) ∧ Frame { pc := true } s t) ∧
    Completes (.sknp x) s (fun t =>
      t.pc = (if s.key[(s.reg x).toNat] = false then s.pc + 2 else s.pc) ∧ Frame { pc := true } s t)

/-- FX07: V[X] becomes DT; FX15: DT becomes V[X]; FX18: ST becomes V[X]; nothing else changes (45_keypad_timers.md R102, R104,
R105). -/
def Obligations.TimerTransfersCopyOneByte : Prop :=
  ∀ (x : Nibble) (s : State),
    Completes (.ldVxDt x) s (fun t => t.reg x = s.dt ∧ Frame { regs := fun r => r == x } s t) ∧
    Completes (.ldDtVx x) s (fun t => t.dt = s.reg x ∧ Frame { dt := true } s t) ∧
    Completes (.ldStVx x) s (fun t => t.st = s.reg x ∧ Frame { st := true } s t)

/-- FX18 with V[X] = v makes the sound signal active for exactly v ticks (45_keypad_timers.md, FX18, corner cases;
60_exceptions.md, Timers and sound signal: the derived signal is the spec's own decision D25). -/
def Obligations.SoundLastsAsManyTicksAsWereSet : Prop :=
  ∀ (x : Nibble) (s : State), s.status = .running →
    Completes (.ldStVx x) s fun t =>
      ∀ k, ∃ u, Session.run (List.replicate k .tick) ⟨t, false⟩ = .next u ∧
        (u.state.soundActive = true ↔ k < (s.reg x).toNat)

/-- FX0A: the lowest-indexed pressed key goes to V[X]; with none pressed only PC changes, back by 2 (45_keypad_timers.md R103). -/
def Obligations.WaitTakesTheLowestPressedKey : Prop :=
  ∀ (x : Nibble) (s : State),
    (∀ k (h : k < 16), s.key[k] = true → (∀ j (hj : j < k), (s.key[j]'(Nat.lt_trans hj h)) = false) →
      Completes (.ldVxK x) s fun t => (t.reg x).toNat = k ∧ Frame { regs := fun r => r == x } s t) ∧
    ((∀ k (h : k < 16), s.key[k] = false) →
      Completes (.ldVxK x) s fun t => t.pc = s.pc - 2 ∧ Frame { pc := true } s t)

/-- A STEP at FX0A with no key pressed returns to the same state (70_reset_and_hazards.md, Block-on-key needs the host). -/
def Obligations.WaitingStepReturnsToTheSameState : Prop :=
  ∀ (x : Nibble) (s : State), s.AtInstr (.ldVxK x) → (∀ k (h : k < 16), s.key[k] = false) → step s = .next s
end

