-- ==== Sys2Proof/Laws/State.lean ====
section
/-! SUPPORT. What each field update leaves in each field, and the reads that follow. No later proof unfolds an update. -/

namespace Sys2Proof.Machine

variable (s : State)

@[simp] theorem State.setReg_mem (x : Nibble) (b : Byte) : (s.setReg x b).mem = s.mem := rfl
@[simp] theorem State.setReg_i (x : Nibble) (b : Byte) : (s.setReg x b).i = s.i := rfl
@[simp] theorem State.setReg_pc (x : Nibble) (b : Byte) : (s.setReg x b).pc = s.pc := rfl
@[simp] theorem State.setReg_stack (x : Nibble) (b : Byte) : (s.setReg x b).stack = s.stack := rfl
@[simp] theorem State.setReg_sp (x : Nibble) (b : Byte) : (s.setReg x b).sp = s.sp := rfl
@[simp] theorem State.setReg_dt (x : Nibble) (b : Byte) : (s.setReg x b).dt = s.dt := rfl
@[simp] theorem State.setReg_st (x : Nibble) (b : Byte) : (s.setReg x b).st = s.st := rfl
@[simp] theorem State.setReg_pix (x : Nibble) (b : Byte) : (s.setReg x b).pix = s.pix := rfl
@[simp] theorem State.setReg_redraw (x : Nibble) (b : Byte) : (s.setReg x b).redraw = s.redraw := rfl
@[simp] theorem State.setReg_key (x : Nibble) (b : Byte) : (s.setReg x b).key = s.key := rfl
@[simp] theorem State.setReg_status (x : Nibble) (b : Byte) : (s.setReg x b).status = s.status := rfl
@[simp] theorem State.setReg_draws (x : Nibble) (b : Byte) : (s.setReg x b).draws = s.draws := rfl
@[simp] theorem State.setReg_freeIndex (x : Nibble) (b : Byte) : (s.setReg x b).freeIndex = s.freeIndex := rfl

@[simp] theorem State.setMem_mem (m : Memory) : (s.setMem m).mem = m := rfl
@[simp] theorem State.setMem_v (m : Memory) : (s.setMem m).v = s.v := rfl
@[simp] theorem State.setMem_i (m : Memory) : (s.setMem m).i = s.i := rfl
@[simp] theorem State.setMem_pc (m : Memory) : (s.setMem m).pc = s.pc := rfl
@[simp] theorem State.setMem_stack (m : Memory) : (s.setMem m).stack = s.stack := rfl
@[simp] theorem State.setMem_sp (m : Memory) : (s.setMem m).sp = s.sp := rfl
@[simp] theorem State.setMem_dt (m : Memory) : (s.setMem m).dt = s.dt := rfl
@[simp] theorem State.setMem_st (m : Memory) : (s.setMem m).st = s.st := rfl
@[simp] theorem State.setMem_pix (m : Memory) : (s.setMem m).pix = s.pix := rfl
@[simp] theorem State.setMem_redraw (m : Memory) : (s.setMem m).redraw = s.redraw := rfl
@[simp] theorem State.setMem_key (m : Memory) : (s.setMem m).key = s.key := rfl
@[simp] theorem State.setMem_status (m : Memory) : (s.setMem m).status = s.status := rfl
@[simp] theorem State.setMem_draws (m : Memory) : (s.setMem m).draws = s.draws := rfl
@[simp] theorem State.setMem_freeIndex (m : Memory) : (s.setMem m).freeIndex = s.freeIndex := rfl

@[simp] theorem State.setI_mem (w : Word) : (s.setI w).mem = s.mem := rfl
@[simp] theorem State.setI_v (w : Word) : (s.setI w).v = s.v := rfl
@[simp] theorem State.setI_i (w : Word) : (s.setI w).i = w := rfl
@[simp] theorem State.setI_pc (w : Word) : (s.setI w).pc = s.pc := rfl
@[simp] theorem State.setI_stack (w : Word) : (s.setI w).stack = s.stack := rfl
@[simp] theorem State.setI_sp (w : Word) : (s.setI w).sp = s.sp := rfl
@[simp] theorem State.setI_dt (w : Word) : (s.setI w).dt = s.dt := rfl
@[simp] theorem State.setI_st (w : Word) : (s.setI w).st = s.st := rfl
@[simp] theorem State.setI_pix (w : Word) : (s.setI w).pix = s.pix := rfl
@[simp] theorem State.setI_redraw (w : Word) : (s.setI w).redraw = s.redraw := rfl
@[simp] theorem State.setI_key (w : Word) : (s.setI w).key = s.key := rfl
@[simp] theorem State.setI_status (w : Word) : (s.setI w).status = s.status := rfl
@[simp] theorem State.setI_draws (w : Word) : (s.setI w).draws = s.draws := rfl
@[simp] theorem State.setI_freeIndex (w : Word) : (s.setI w).freeIndex = s.freeIndex := rfl

@[simp] theorem State.setPc_mem (w : Word) : (s.setPc w).mem = s.mem := rfl
@[simp] theorem State.setPc_v (w : Word) : (s.setPc w).v = s.v := rfl
@[simp] theorem State.setPc_i (w : Word) : (s.setPc w).i = s.i := rfl
@[simp] theorem State.setPc_pc (w : Word) : (s.setPc w).pc = w := rfl
@[simp] theorem State.setPc_stack (w : Word) : (s.setPc w).stack = s.stack := rfl
@[simp] theorem State.setPc_sp (w : Word) : (s.setPc w).sp = s.sp := rfl
@[simp] theorem State.setPc_dt (w : Word) : (s.setPc w).dt = s.dt := rfl
@[simp] theorem State.setPc_st (w : Word) : (s.setPc w).st = s.st := rfl
@[simp] theorem State.setPc_pix (w : Word) : (s.setPc w).pix = s.pix := rfl
@[simp] theorem State.setPc_redraw (w : Word) : (s.setPc w).redraw = s.redraw := rfl
@[simp] theorem State.setPc_key (w : Word) : (s.setPc w).key = s.key := rfl
@[simp] theorem State.setPc_status (w : Word) : (s.setPc w).status = s.status := rfl
@[simp] theorem State.setPc_draws (w : Word) : (s.setPc w).draws = s.draws := rfl
@[simp] theorem State.setPc_freeIndex (w : Word) : (s.setPc w).freeIndex = s.freeIndex := rfl

@[simp] theorem State.setStack_mem (k : Vector Word Config.stackDepth) : (s.setStack k).mem = s.mem := rfl
@[simp] theorem State.setStack_v (k : Vector Word Config.stackDepth) : (s.setStack k).v = s.v := rfl
@[simp] theorem State.setStack_i (k : Vector Word Config.stackDepth) : (s.setStack k).i = s.i := rfl
@[simp] theorem State.setStack_pc (k : Vector Word Config.stackDepth) : (s.setStack k).pc = s.pc := rfl
@[simp] theorem State.setStack_stack (k : Vector Word Config.stackDepth) : (s.setStack k).stack = k := rfl
@[simp] theorem State.setStack_sp (k : Vector Word Config.stackDepth) : (s.setStack k).sp = s.sp := rfl
@[simp] theorem State.setStack_dt (k : Vector Word Config.stackDepth) : (s.setStack k).dt = s.dt := rfl
@[simp] theorem State.setStack_st (k : Vector Word Config.stackDepth) : (s.setStack k).st = s.st := rfl
@[simp] theorem State.setStack_pix (k : Vector Word Config.stackDepth) : (s.setStack k).pix = s.pix := rfl
@[simp] theorem State.setStack_redraw (k : Vector Word Config.stackDepth) : (s.setStack k).redraw = s.redraw := rfl
@[simp] theorem State.setStack_key (k : Vector Word Config.stackDepth) : (s.setStack k).key = s.key := rfl
@[simp] theorem State.setStack_status (k : Vector Word Config.stackDepth) : (s.setStack k).status = s.status := rfl
@[simp] theorem State.setStack_draws (k : Vector Word Config.stackDepth) : (s.setStack k).draws = s.draws := rfl
@[simp] theorem State.setStack_freeIndex (k : Vector Word Config.stackDepth) : (s.setStack k).freeIndex = s.freeIndex := rfl

@[simp] theorem State.setSp_mem (n : Fin (Config.stackDepth + 1)) : (s.setSp n).mem = s.mem := rfl
@[simp] theorem State.setSp_v (n : Fin (Config.stackDepth + 1)) : (s.setSp n).v = s.v := rfl
@[simp] theorem State.setSp_i (n : Fin (Config.stackDepth + 1)) : (s.setSp n).i = s.i := rfl
@[simp] theorem State.setSp_pc (n : Fin (Config.stackDepth + 1)) : (s.setSp n).pc = s.pc := rfl
@[simp] theorem State.setSp_stack (n : Fin (Config.stackDepth + 1)) : (s.setSp n).stack = s.stack := rfl
@[simp] theorem State.setSp_sp (n : Fin (Config.stackDepth + 1)) : (s.setSp n).sp = n := rfl
@[simp] theorem State.setSp_dt (n : Fin (Config.stackDepth + 1)) : (s.setSp n).dt = s.dt := rfl
@[simp] theorem State.setSp_st (n : Fin (Config.stackDepth + 1)) : (s.setSp n).st = s.st := rfl
@[simp] theorem State.setSp_pix (n : Fin (Config.stackDepth + 1)) : (s.setSp n).pix = s.pix := rfl
@[simp] theorem State.setSp_redraw (n : Fin (Config.stackDepth + 1)) : (s.setSp n).redraw = s.redraw := rfl
@[simp] theorem State.setSp_key (n : Fin (Config.stackDepth + 1)) : (s.setSp n).key = s.key := rfl
@[simp] theorem State.setSp_status (n : Fin (Config.stackDepth + 1)) : (s.setSp n).status = s.status := rfl
@[simp] theorem State.setSp_draws (n : Fin (Config.stackDepth + 1)) : (s.setSp n).draws = s.draws := rfl
@[simp] theorem State.setSp_freeIndex (n : Fin (Config.stackDepth + 1)) : (s.setSp n).freeIndex = s.freeIndex := rfl

@[simp] theorem State.setDt_mem (b : Byte) : (s.setDt b).mem = s.mem := rfl
@[simp] theorem State.setDt_v (b : Byte) : (s.setDt b).v = s.v := rfl
@[simp] theorem State.setDt_i (b : Byte) : (s.setDt b).i = s.i := rfl
@[simp] theorem State.setDt_pc (b : Byte) : (s.setDt b).pc = s.pc := rfl
@[simp] theorem State.setDt_stack (b : Byte) : (s.setDt b).stack = s.stack := rfl
@[simp] theorem State.setDt_sp (b : Byte) : (s.setDt b).sp = s.sp := rfl
@[simp] theorem State.setDt_dt (b : Byte) : (s.setDt b).dt = b := rfl
@[simp] theorem State.setDt_st (b : Byte) : (s.setDt b).st = s.st := rfl
@[simp] theorem State.setDt_pix (b : Byte) : (s.setDt b).pix = s.pix := rfl
@[simp] theorem State.setDt_redraw (b : Byte) : (s.setDt b).redraw = s.redraw := rfl
@[simp] theorem State.setDt_key (b : Byte) : (s.setDt b).key = s.key := rfl
@[simp] theorem State.setDt_status (b : Byte) : (s.setDt b).status = s.status := rfl
@[simp] theorem State.setDt_draws (b : Byte) : (s.setDt b).draws = s.draws := rfl
@[simp] theorem State.setDt_freeIndex (b : Byte) : (s.setDt b).freeIndex = s.freeIndex := rfl

@[simp] theorem State.setSt_mem (b : Byte) : (s.setSt b).mem = s.mem := rfl
@[simp] theorem State.setSt_v (b : Byte) : (s.setSt b).v = s.v := rfl
@[simp] theorem State.setSt_i (b : Byte) : (s.setSt b).i = s.i := rfl
@[simp] theorem State.setSt_pc (b : Byte) : (s.setSt b).pc = s.pc := rfl
@[simp] theorem State.setSt_stack (b : Byte) : (s.setSt b).stack = s.stack := rfl
@[simp] theorem State.setSt_sp (b : Byte) : (s.setSt b).sp = s.sp := rfl
@[simp] theorem State.setSt_dt (b : Byte) : (s.setSt b).dt = s.dt := rfl
@[simp] theorem State.setSt_st (b : Byte) : (s.setSt b).st = b := rfl
@[simp] theorem State.setSt_pix (b : Byte) : (s.setSt b).pix = s.pix := rfl
@[simp] theorem State.setSt_redraw (b : Byte) : (s.setSt b).redraw = s.redraw := rfl
@[simp] theorem State.setSt_key (b : Byte) : (s.setSt b).key = s.key := rfl
@[simp] theorem State.setSt_status (b : Byte) : (s.setSt b).status = s.status := rfl
@[simp] theorem State.setSt_draws (b : Byte) : (s.setSt b).draws = s.draws := rfl
@[simp] theorem State.setSt_freeIndex (b : Byte) : (s.setSt b).freeIndex = s.freeIndex := rfl

@[simp] theorem State.setPix_mem (p : Vector (Vector Bool Config.screenW) Config.screenH) : (s.setPix p).mem = s.mem := rfl
@[simp] theorem State.setPix_v (p : Vector (Vector Bool Config.screenW) Config.screenH) : (s.setPix p).v = s.v := rfl
@[simp] theorem State.setPix_i (p : Vector (Vector Bool Config.screenW) Config.screenH) : (s.setPix p).i = s.i := rfl
@[simp] theorem State.setPix_pc (p : Vector (Vector Bool Config.screenW) Config.screenH) : (s.setPix p).pc = s.pc := rfl
@[simp] theorem State.setPix_stack (p : Vector (Vector Bool Config.screenW) Config.screenH) : (s.setPix p).stack = s.stack := rfl
@[simp] theorem State.setPix_sp (p : Vector (Vector Bool Config.screenW) Config.screenH) : (s.setPix p).sp = s.sp := rfl
@[simp] theorem State.setPix_dt (p : Vector (Vector Bool Config.screenW) Config.screenH) : (s.setPix p).dt = s.dt := rfl
@[simp] theorem State.setPix_st (p : Vector (Vector Bool Config.screenW) Config.screenH) : (s.setPix p).st = s.st := rfl
@[simp] theorem State.setPix_pix (p : Vector (Vector Bool Config.screenW) Config.screenH) : (s.setPix p).pix = p := rfl
@[simp] theorem State.setPix_redraw (p : Vector (Vector Bool Config.screenW) Config.screenH) : (s.setPix p).redraw = s.redraw := rfl
@[simp] theorem State.setPix_key (p : Vector (Vector Bool Config.screenW) Config.screenH) : (s.setPix p).key = s.key := rfl
@[simp] theorem State.setPix_status (p : Vector (Vector Bool Config.screenW) Config.screenH) : (s.setPix p).status = s.status := rfl
@[simp] theorem State.setPix_draws (p : Vector (Vector Bool Config.screenW) Config.screenH) : (s.setPix p).draws = s.draws := rfl
@[simp] theorem State.setPix_freeIndex (p : Vector (Vector Bool Config.screenW) Config.screenH) : (s.setPix p).freeIndex = s.freeIndex := rfl

@[simp] theorem State.setRedraw_mem (b : Bool) : (s.setRedraw b).mem = s.mem := rfl
@[simp] theorem State.setRedraw_v (b : Bool) : (s.setRedraw b).v = s.v := rfl
@[simp] theorem State.setRedraw_i (b : Bool) : (s.setRedraw b).i = s.i := rfl
@[simp] theorem State.setRedraw_pc (b : Bool) : (s.setRedraw b).pc = s.pc := rfl
@[simp] theorem State.setRedraw_stack (b : Bool) : (s.setRedraw b).stack = s.stack := rfl
@[simp] theorem State.setRedraw_sp (b : Bool) : (s.setRedraw b).sp = s.sp := rfl
@[simp] theorem State.setRedraw_dt (b : Bool) : (s.setRedraw b).dt = s.dt := rfl
@[simp] theorem State.setRedraw_st (b : Bool) : (s.setRedraw b).st = s.st := rfl
@[simp] theorem State.setRedraw_pix (b : Bool) : (s.setRedraw b).pix = s.pix := rfl
@[simp] theorem State.setRedraw_redraw (b : Bool) : (s.setRedraw b).redraw = b := rfl
@[simp] theorem State.setRedraw_key (b : Bool) : (s.setRedraw b).key = s.key := rfl
@[simp] theorem State.setRedraw_status (b : Bool) : (s.setRedraw b).status = s.status := rfl
@[simp] theorem State.setRedraw_draws (b : Bool) : (s.setRedraw b).draws = s.draws := rfl
@[simp] theorem State.setRedraw_freeIndex (b : Bool) : (s.setRedraw b).freeIndex = s.freeIndex := rfl

@[simp] theorem State.setKeys_mem (k : Vector Bool Config.numKeys) : (s.setKeys k).mem = s.mem := rfl
@[simp] theorem State.setKeys_v (k : Vector Bool Config.numKeys) : (s.setKeys k).v = s.v := rfl
@[simp] theorem State.setKeys_i (k : Vector Bool Config.numKeys) : (s.setKeys k).i = s.i := rfl
@[simp] theorem State.setKeys_pc (k : Vector Bool Config.numKeys) : (s.setKeys k).pc = s.pc := rfl
@[simp] theorem State.setKeys_stack (k : Vector Bool Config.numKeys) : (s.setKeys k).stack = s.stack := rfl
@[simp] theorem State.setKeys_sp (k : Vector Bool Config.numKeys) : (s.setKeys k).sp = s.sp := rfl
@[simp] theorem State.setKeys_dt (k : Vector Bool Config.numKeys) : (s.setKeys k).dt = s.dt := rfl
@[simp] theorem State.setKeys_st (k : Vector Bool Config.numKeys) : (s.setKeys k).st = s.st := rfl
@[simp] theorem State.setKeys_pix (k : Vector Bool Config.numKeys) : (s.setKeys k).pix = s.pix := rfl
@[simp] theorem State.setKeys_redraw (k : Vector Bool Config.numKeys) : (s.setKeys k).redraw = s.redraw := rfl
@[simp] theorem State.setKeys_key (k : Vector Bool Config.numKeys) : (s.setKeys k).key = k := rfl
@[simp] theorem State.setKeys_status (k : Vector Bool Config.numKeys) : (s.setKeys k).status = s.status := rfl
@[simp] theorem State.setKeys_draws (k : Vector Bool Config.numKeys) : (s.setKeys k).draws = s.draws := rfl
@[simp] theorem State.setKeys_freeIndex (k : Vector Bool Config.numKeys) : (s.setKeys k).freeIndex = s.freeIndex := rfl

@[simp] theorem State.setStatus_mem (u : Status) : (s.setStatus u).mem = s.mem := rfl
@[simp] theorem State.setStatus_v (u : Status) : (s.setStatus u).v = s.v := rfl
@[simp] theorem State.setStatus_i (u : Status) : (s.setStatus u).i = s.i := rfl
@[simp] theorem State.setStatus_pc (u : Status) : (s.setStatus u).pc = s.pc := rfl
@[simp] theorem State.setStatus_stack (u : Status) : (s.setStatus u).stack = s.stack := rfl
@[simp] theorem State.setStatus_sp (u : Status) : (s.setStatus u).sp = s.sp := rfl
@[simp] theorem State.setStatus_dt (u : Status) : (s.setStatus u).dt = s.dt := rfl
@[simp] theorem State.setStatus_st (u : Status) : (s.setStatus u).st = s.st := rfl
@[simp] theorem State.setStatus_pix (u : Status) : (s.setStatus u).pix = s.pix := rfl
@[simp] theorem State.setStatus_redraw (u : Status) : (s.setStatus u).redraw = s.redraw := rfl
@[simp] theorem State.setStatus_key (u : Status) : (s.setStatus u).key = s.key := rfl
@[simp] theorem State.setStatus_status (u : Status) : (s.setStatus u).status = u := rfl
@[simp] theorem State.setStatus_draws (u : Status) : (s.setStatus u).draws = s.draws := rfl
@[simp] theorem State.setStatus_freeIndex (u : Status) : (s.setStatus u).freeIndex = s.freeIndex := rfl

@[simp] theorem State.setDraws_mem (l : List Byte) : (s.setDraws l).mem = s.mem := rfl
@[simp] theorem State.setDraws_v (l : List Byte) : (s.setDraws l).v = s.v := rfl
@[simp] theorem State.setDraws_i (l : List Byte) : (s.setDraws l).i = s.i := rfl
@[simp] theorem State.setDraws_pc (l : List Byte) : (s.setDraws l).pc = s.pc := rfl
@[simp] theorem State.setDraws_stack (l : List Byte) : (s.setDraws l).stack = s.stack := rfl
@[simp] theorem State.setDraws_sp (l : List Byte) : (s.setDraws l).sp = s.sp := rfl
@[simp] theorem State.setDraws_dt (l : List Byte) : (s.setDraws l).dt = s.dt := rfl
@[simp] theorem State.setDraws_st (l : List Byte) : (s.setDraws l).st = s.st := rfl
@[simp] theorem State.setDraws_pix (l : List Byte) : (s.setDraws l).pix = s.pix := rfl
@[simp] theorem State.setDraws_redraw (l : List Byte) : (s.setDraws l).redraw = s.redraw := rfl
@[simp] theorem State.setDraws_key (l : List Byte) : (s.setDraws l).key = s.key := rfl
@[simp] theorem State.setDraws_status (l : List Byte) : (s.setDraws l).status = s.status := rfl
@[simp] theorem State.setDraws_draws (l : List Byte) : (s.setDraws l).draws = l := rfl
@[simp] theorem State.setDraws_freeIndex (l : List Byte) : (s.setDraws l).freeIndex = s.freeIndex := rfl

@[simp] theorem State.setFreeIndex_mem (n : Nat) : (s.setFreeIndex n).mem = s.mem := rfl
@[simp] theorem State.setFreeIndex_v (n : Nat) : (s.setFreeIndex n).v = s.v := rfl
@[simp] theorem State.setFreeIndex_i (n : Nat) : (s.setFreeIndex n).i = s.i := rfl
@[simp] theorem State.setFreeIndex_pc (n : Nat) : (s.setFreeIndex n).pc = s.pc := rfl
@[simp] theorem State.setFreeIndex_stack (n : Nat) : (s.setFreeIndex n).stack = s.stack := rfl
@[simp] theorem State.setFreeIndex_sp (n : Nat) : (s.setFreeIndex n).sp = s.sp := rfl
@[simp] theorem State.setFreeIndex_dt (n : Nat) : (s.setFreeIndex n).dt = s.dt := rfl
@[simp] theorem State.setFreeIndex_st (n : Nat) : (s.setFreeIndex n).st = s.st := rfl
@[simp] theorem State.setFreeIndex_pix (n : Nat) : (s.setFreeIndex n).pix = s.pix := rfl
@[simp] theorem State.setFreeIndex_redraw (n : Nat) : (s.setFreeIndex n).redraw = s.redraw := rfl
@[simp] theorem State.setFreeIndex_key (n : Nat) : (s.setFreeIndex n).key = s.key := rfl
@[simp] theorem State.setFreeIndex_status (n : Nat) : (s.setFreeIndex n).status = s.status := rfl
@[simp] theorem State.setFreeIndex_draws (n : Nat) : (s.setFreeIndex n).draws = s.draws := rfl
@[simp] theorem State.setFreeIndex_freeIndex (n : Nat) : (s.setFreeIndex n).freeIndex = n := rfl

/-! ## Registers -/

theorem State.sp_le : s.sp.val ≤ 16 := Nat.le_of_lt_succ s.sp.isLt

/-- Reading a register after a register write. -/
theorem State.reg_setReg (x y : Nibble) (b : Byte) : (s.setReg x b).reg y = if y = x then b else s.reg y := by
  unfold State.reg State.setReg
  simp only [Vector.getElem_set, BitVec.toNat_inj, eq_comm (a := x)]

@[simp] theorem State.reg_setReg_self (x : Nibble) (b : Byte) : (s.setReg x b).reg x = b := by
  simp [State.reg_setReg]

theorem State.reg_setReg_of_ne (x y : Nibble) (b : Byte) (h : y ≠ x) : (s.setReg x b).reg y = s.reg y := by
  simp [State.reg_setReg, h]

@[simp] theorem State.reg_setMem (m : Memory) (x : Nibble) : (s.setMem m).reg x = s.reg x := rfl
@[simp] theorem State.reg_setI (w : Word) (x : Nibble) : (s.setI w).reg x = s.reg x := rfl
@[simp] theorem State.reg_setPc (w : Word) (x : Nibble) : (s.setPc w).reg x = s.reg x := rfl
@[simp] theorem State.reg_setStack (k : Vector Word Config.stackDepth) (x : Nibble) : (s.setStack k).reg x = s.reg x := rfl
@[simp] theorem State.reg_setSp (n : Fin (Config.stackDepth + 1)) (x : Nibble) : (s.setSp n).reg x = s.reg x := rfl
@[simp] theorem State.reg_setDt (b : Byte) (x : Nibble) : (s.setDt b).reg x = s.reg x := rfl
@[simp] theorem State.reg_setSt (b : Byte) (x : Nibble) : (s.setSt b).reg x = s.reg x := rfl
@[simp] theorem State.reg_setPix (p : Vector (Vector Bool Config.screenW) Config.screenH) (x : Nibble) : (s.setPix p).reg x = s.reg x := rfl
@[simp] theorem State.reg_setRedraw (b : Bool) (x : Nibble) : (s.setRedraw b).reg x = s.reg x := rfl
@[simp] theorem State.reg_setKeys (k : Vector Bool Config.numKeys) (x : Nibble) : (s.setKeys k).reg x = s.reg x := rfl
@[simp] theorem State.reg_setStatus (u : Status) (x : Nibble) : (s.setStatus u).reg x = s.reg x := rfl
@[simp] theorem State.reg_setDraws (l : List Byte) (x : Nibble) : (s.setDraws l).reg x = s.reg x := rfl
@[simp] theorem State.reg_setFreeIndex (n : Nat) (x : Nibble) : (s.setFreeIndex n).reg x = s.reg x := rfl

/-! ## Bytes and pixels -/

@[simp] theorem State.byteAt_setReg (x : Nibble) (b : Byte) (a : Nat) : (s.setReg x b).byteAt a = s.byteAt a := rfl
@[simp] theorem State.pixel_setReg (x : Nibble) (b : Byte) (row col : Nat) : (s.setReg x b).pixel row col = s.pixel row col := rfl
@[simp] theorem State.pixel_setMem (m : Memory) (row col : Nat) : (s.setMem m).pixel row col = s.pixel row col := rfl
@[simp] theorem State.byteAt_setI (w : Word) (a : Nat) : (s.setI w).byteAt a = s.byteAt a := rfl
@[simp] theorem State.pixel_setI (w : Word) (row col : Nat) : (s.setI w).pixel row col = s.pixel row col := rfl
@[simp] theorem State.byteAt_setPc (w : Word) (a : Nat) : (s.setPc w).byteAt a = s.byteAt a := rfl
@[simp] theorem State.pixel_setPc (w : Word) (row col : Nat) : (s.setPc w).pixel row col = s.pixel row col := rfl
@[simp] theorem State.byteAt_setStack (k : Vector Word Config.stackDepth) (a : Nat) : (s.setStack k).byteAt a = s.byteAt a := rfl
@[simp] theorem State.pixel_setStack (k : Vector Word Config.stackDepth) (row col : Nat) : (s.setStack k).pixel row col = s.pixel row col := rfl
@[simp] theorem State.byteAt_setSp (n : Fin (Config.stackDepth + 1)) (a : Nat) : (s.setSp n).byteAt a = s.byteAt a := rfl
@[simp] theorem State.pixel_setSp (n : Fin (Config.stackDepth + 1)) (row col : Nat) : (s.setSp n).pixel row col = s.pixel row col := rfl
@[simp] theorem State.byteAt_setDt (b : Byte) (a : Nat) : (s.setDt b).byteAt a = s.byteAt a := rfl
@[simp] theorem State.pixel_setDt (b : Byte) (row col : Nat) : (s.setDt b).pixel row col = s.pixel row col := rfl
@[simp] theorem State.byteAt_setSt (b : Byte) (a : Nat) : (s.setSt b).byteAt a = s.byteAt a := rfl
@[simp] theorem State.pixel_setSt (b : Byte) (row col : Nat) : (s.setSt b).pixel row col = s.pixel row col := rfl
@[simp] theorem State.byteAt_setPix (p : Vector (Vector Bool Config.screenW) Config.screenH) (a : Nat) : (s.setPix p).byteAt a = s.byteAt a := rfl
@[simp] theorem State.byteAt_setRedraw (b : Bool) (a : Nat) : (s.setRedraw b).byteAt a = s.byteAt a := rfl
@[simp] theorem State.pixel_setRedraw (b : Bool) (row col : Nat) : (s.setRedraw b).pixel row col = s.pixel row col := rfl
@[simp] theorem State.byteAt_setKeys (k : Vector Bool Config.numKeys) (a : Nat) : (s.setKeys k).byteAt a = s.byteAt a := rfl
@[simp] theorem State.pixel_setKeys (k : Vector Bool Config.numKeys) (row col : Nat) : (s.setKeys k).pixel row col = s.pixel row col := rfl
@[simp] theorem State.byteAt_setStatus (u : Status) (a : Nat) : (s.setStatus u).byteAt a = s.byteAt a := rfl
@[simp] theorem State.pixel_setStatus (u : Status) (row col : Nat) : (s.setStatus u).pixel row col = s.pixel row col := rfl
@[simp] theorem State.byteAt_setDraws (l : List Byte) (a : Nat) : (s.setDraws l).byteAt a = s.byteAt a := rfl
@[simp] theorem State.pixel_setDraws (l : List Byte) (row col : Nat) : (s.setDraws l).pixel row col = s.pixel row col := rfl
@[simp] theorem State.byteAt_setFreeIndex (n : Nat) (a : Nat) : (s.setFreeIndex n).byteAt a = s.byteAt a := rfl
@[simp] theorem State.pixel_setFreeIndex (n : Nat) (row col : Nat) : (s.setFreeIndex n).pixel row col = s.pixel row col := rfl

/-! ## Composite updates -/

@[simp] theorem State.skip_mem : (s.skip).mem = s.mem := rfl
@[simp] theorem State.skip_v : (s.skip).v = s.v := rfl
@[simp] theorem State.skip_i : (s.skip).i = s.i := rfl
@[simp] theorem State.skip_pc : (s.skip).pc = s.pc + 2 := rfl
@[simp] theorem State.skip_stack : (s.skip).stack = s.stack := rfl
@[simp] theorem State.skip_sp : (s.skip).sp = s.sp := rfl
@[simp] theorem State.skip_dt : (s.skip).dt = s.dt := rfl
@[simp] theorem State.skip_st : (s.skip).st = s.st := rfl
@[simp] theorem State.skip_pix : (s.skip).pix = s.pix := rfl
@[simp] theorem State.skip_redraw : (s.skip).redraw = s.redraw := rfl
@[simp] theorem State.skip_key : (s.skip).key = s.key := rfl
@[simp] theorem State.skip_status : (s.skip).status = s.status := rfl
@[simp] theorem State.skip_draws : (s.skip).draws = s.draws := rfl
@[simp] theorem State.skip_freeIndex : (s.skip).freeIndex = s.freeIndex := rfl
@[simp] theorem State.reg_skip (x : Nibble) : (s.skip).reg x = s.reg x := rfl
@[simp] theorem State.byteAt_skip (a : Nat) : (s.skip).byteAt a = s.byteAt a := rfl

@[simp] theorem State.advance_mem : (s.advance).mem = s.mem := rfl
@[simp] theorem State.advance_v : (s.advance).v = s.v := rfl
@[simp] theorem State.advance_i : (s.advance).i = s.i := rfl
@[simp] theorem State.advance_pc : (s.advance).pc = s.pc + 2 := rfl
@[simp] theorem State.advance_stack : (s.advance).stack = s.stack := rfl
@[simp] theorem State.advance_sp : (s.advance).sp = s.sp := rfl
@[simp] theorem State.advance_dt : (s.advance).dt = s.dt := rfl
@[simp] theorem State.advance_st : (s.advance).st = s.st := rfl
@[simp] theorem State.advance_pix : (s.advance).pix = s.pix := rfl
@[simp] theorem State.advance_redraw : (s.advance).redraw = s.redraw := rfl
@[simp] theorem State.advance_key : (s.advance).key = s.key := rfl
@[simp] theorem State.advance_status : (s.advance).status = s.status := rfl
@[simp] theorem State.advance_draws : (s.advance).draws = s.draws := rfl
@[simp] theorem State.advance_freeIndex : (s.advance).freeIndex = s.freeIndex := rfl
@[simp] theorem State.reg_advance (x : Nibble) : (s.advance).reg x = s.reg x := rfl
@[simp] theorem State.byteAt_advance (a : Nat) : (s.advance).byteAt a = s.byteAt a := rfl

@[simp] theorem State.clearScreen_mem : (s.clearScreen).mem = s.mem := rfl
@[simp] theorem State.clearScreen_v : (s.clearScreen).v = s.v := rfl
@[simp] theorem State.clearScreen_i : (s.clearScreen).i = s.i := rfl
@[simp] theorem State.clearScreen_pc : (s.clearScreen).pc = s.pc := rfl
@[simp] theorem State.clearScreen_stack : (s.clearScreen).stack = s.stack := rfl
@[simp] theorem State.clearScreen_sp : (s.clearScreen).sp = s.sp := rfl
@[simp] theorem State.clearScreen_dt : (s.clearScreen).dt = s.dt := rfl
@[simp] theorem State.clearScreen_st : (s.clearScreen).st = s.st := rfl
@[simp] theorem State.clearScreen_pix : (s.clearScreen).pix = Vector.replicate Config.screenH (Vector.replicate Config.screenW false) := rfl
@[simp] theorem State.clearScreen_redraw : (s.clearScreen).redraw = s.redraw := rfl
@[simp] theorem State.clearScreen_key : (s.clearScreen).key = s.key := rfl
@[simp] theorem State.clearScreen_status : (s.clearScreen).status = s.status := rfl
@[simp] theorem State.clearScreen_draws : (s.clearScreen).draws = s.draws := rfl
@[simp] theorem State.clearScreen_freeIndex : (s.clearScreen).freeIndex = s.freeIndex := rfl
@[simp] theorem State.reg_clearScreen (x : Nibble) : (s.clearScreen).reg x = s.reg x := rfl
@[simp] theorem State.byteAt_clearScreen (a : Nat) : (s.clearScreen).byteAt a = s.byteAt a := rfl

@[simp] theorem State.setByte_v (a : Nat) (b : Byte) : (s.setByte a b).v = s.v := rfl
@[simp] theorem State.setByte_i (a : Nat) (b : Byte) : (s.setByte a b).i = s.i := rfl
@[simp] theorem State.setByte_pc (a : Nat) (b : Byte) : (s.setByte a b).pc = s.pc := rfl
@[simp] theorem State.setByte_stack (a : Nat) (b : Byte) : (s.setByte a b).stack = s.stack := rfl
@[simp] theorem State.setByte_sp (a : Nat) (b : Byte) : (s.setByte a b).sp = s.sp := rfl
@[simp] theorem State.setByte_dt (a : Nat) (b : Byte) : (s.setByte a b).dt = s.dt := rfl
@[simp] theorem State.setByte_st (a : Nat) (b : Byte) : (s.setByte a b).st = s.st := rfl
@[simp] theorem State.setByte_pix (a : Nat) (b : Byte) : (s.setByte a b).pix = s.pix := rfl
@[simp] theorem State.setByte_redraw (a : Nat) (b : Byte) : (s.setByte a b).redraw = s.redraw := rfl
@[simp] theorem State.setByte_key (a : Nat) (b : Byte) : (s.setByte a b).key = s.key := rfl
@[simp] theorem State.setByte_status (a : Nat) (b : Byte) : (s.setByte a b).status = s.status := rfl
@[simp] theorem State.setByte_draws (a : Nat) (b : Byte) : (s.setByte a b).draws = s.draws := rfl
@[simp] theorem State.setByte_freeIndex (a : Nat) (b : Byte) : (s.setByte a b).freeIndex = s.freeIndex := rfl
@[simp] theorem State.setByte_mem (a : Nat) (b : Byte) : (s.setByte a b).mem = s.mem.writeAt a b := rfl
@[simp] theorem State.reg_setByte (a : Nat) (b : Byte) (x : Nibble) : (s.setByte a b).reg x = s.reg x := rfl

@[simp] theorem State.setPixel_mem (row col : Nat) (b : Bool) : (s.setPixel row col b).mem = s.mem := by
  unfold State.setPixel; split <;> rfl
@[simp] theorem State.setPixel_v (row col : Nat) (b : Bool) : (s.setPixel row col b).v = s.v := by
  unfold State.setPixel; split <;> rfl
@[simp] theorem State.setPixel_i (row col : Nat) (b : Bool) : (s.setPixel row col b).i = s.i := by
  unfold State.setPixel; split <;> rfl
@[simp] theorem State.setPixel_pc (row col : Nat) (b : Bool) : (s.setPixel row col b).pc = s.pc := by
  unfold State.setPixel; split <;> rfl
@[simp] theorem State.setPixel_stack (row col : Nat) (b : Bool) : (s.setPixel row col b).stack = s.stack := by
  unfold State.setPixel; split <;> rfl
@[simp] theorem State.setPixel_sp (row col : Nat) (b : Bool) : (s.setPixel row col b).sp = s.sp := by
  unfold State.setPixel; split <;> rfl
@[simp] theorem State.setPixel_dt (row col : Nat) (b : Bool) : (s.setPixel row col b).dt = s.dt := by
  unfold State.setPixel; split <;> rfl
@[simp] theorem State.setPixel_st (row col : Nat) (b : Bool) : (s.setPixel row col b).st = s.st := by
  unfold State.setPixel; split <;> rfl
@[simp] theorem State.setPixel_redraw (row col : Nat) (b : Bool) : (s.setPixel row col b).redraw = s.redraw := by
  unfold State.setPixel; split <;> rfl
@[simp] theorem State.setPixel_key (row col : Nat) (b : Bool) : (s.setPixel row col b).key = s.key := by
  unfold State.setPixel; split <;> rfl
@[simp] theorem State.setPixel_status (row col : Nat) (b : Bool) : (s.setPixel row col b).status = s.status := by
  unfold State.setPixel; split <;> rfl
@[simp] theorem State.setPixel_draws (row col : Nat) (b : Bool) : (s.setPixel row col b).draws = s.draws := by
  unfold State.setPixel; split <;> rfl
@[simp] theorem State.setPixel_freeIndex (row col : Nat) (b : Bool) : (s.setPixel row col b).freeIndex = s.freeIndex := by
  unfold State.setPixel; split <;> rfl
@[simp] theorem State.reg_setPixel (row col : Nat) (b : Bool) (x : Nibble) : (s.setPixel row col b).reg x = s.reg x := by
  unfold State.setPixel; split <;> rfl
@[simp] theorem State.byteAt_setPixel (row col : Nat) (b : Bool) (a : Nat) : (s.setPixel row col b).byteAt a = s.byteAt a := by
  unfold State.setPixel; split <;> rfl

@[simp] theorem State.dropDraw_mem : (s.dropDraw).mem = s.mem := by
  unfold State.dropDraw; split <;> rfl
@[simp] theorem State.dropDraw_v : (s.dropDraw).v = s.v := by
  unfold State.dropDraw; split <;> rfl
@[simp] theorem State.dropDraw_i : (s.dropDraw).i = s.i := by
  unfold State.dropDraw; split <;> rfl
@[simp] theorem State.dropDraw_pc : (s.dropDraw).pc = s.pc := by
  unfold State.dropDraw; split <;> rfl
@[simp] theorem State.dropDraw_stack : (s.dropDraw).stack = s.stack := by
  unfold State.dropDraw; split <;> rfl
@[simp] theorem State.dropDraw_sp : (s.dropDraw).sp = s.sp := by
  unfold State.dropDraw; split <;> rfl
@[simp] theorem State.dropDraw_dt : (s.dropDraw).dt = s.dt := by
  unfold State.dropDraw; split <;> rfl
@[simp] theorem State.dropDraw_st : (s.dropDraw).st = s.st := by
  unfold State.dropDraw; split <;> rfl
@[simp] theorem State.dropDraw_pix : (s.dropDraw).pix = s.pix := by
  unfold State.dropDraw; split <;> rfl
@[simp] theorem State.dropDraw_redraw : (s.dropDraw).redraw = s.redraw := by
  unfold State.dropDraw; split <;> rfl
@[simp] theorem State.dropDraw_key : (s.dropDraw).key = s.key := by
  unfold State.dropDraw; split <;> rfl
@[simp] theorem State.dropDraw_status : (s.dropDraw).status = s.status := by
  unfold State.dropDraw; split <;> rfl
@[simp] theorem State.reg_dropDraw (x : Nibble) : (s.dropDraw).reg x = s.reg x := by
  unfold State.dropDraw; split <;> rfl
@[simp] theorem State.byteAt_dropDraw (a : Nat) : (s.dropDraw).byteAt a = s.byteAt a := by
  unfold State.dropDraw; split <;> rfl

/-! ## A fault -/

@[simp] theorem takeFault_status (r : Raise) (a : Option Word) :
    (takeFault r a s).status = .faulted r.kind r.info a := rfl
theorem takeFault_mem (r : Raise) (a : Option Word) :
    (takeFault r a s).mem = Memory.ofBytes (Config.faultedByte s.freeIndex) := by
  unfold takeFault State.unspecified
  exact State.setStatus_mem _ _
@[simp] theorem takeFault_draws (r : Raise) (a : Option Word) : (takeFault r a s).draws = s.draws := rfl
@[simp] theorem takeFault_freeIndex (r : Raise) (a : Option Word) : (takeFault r a s).freeIndex = s.freeIndex + 1 := rfl

/-! ## Skips -/

/-- A conditional skip writes nothing but PC. -/
theorem State.skipIf_eq (c : Bool) : s.skipIf c = s.setPc (if c then s.pc + 2 else s.pc) := by
  cases c <;> rfl

/-- A pixel write, read back. -/
theorem State.pixel_setPixel (row col r c : Nat) (b : Bool) (hr : row < 32) (hc : col < 64) :
    (s.setPixel row col b).pixel r c = if r = row ∧ c = col then b else s.pixel r c := by
  have hw : s.setPixel row col b = s.setPix (s.pix.set row ((s.pix[row]'hr).set col b hc) hr) := by
    unfold State.setPixel
    rw [dif_pos ⟨hr, hc⟩]
  rw [hw]
  unfold State.pixel
  by_cases h : r < 32 ∧ c < 64
  · simp only [dif_pos h, State.setPix_pix, Vector.getElem_set]
    by_cases h1 : row = r
    · subst h1
      simp [Vector.getElem_set, eq_comm]
    · simp [h1, Ne.symm h1]
  · rw [dif_neg h, dif_neg h, if_neg]
    rintro ⟨rfl, rfl⟩
    exact h ⟨hr, hc⟩

end Sys2Proof.Machine
end

