-- ==== Sys2Proof/Laws/Memory.lean ====
section
/-! SUPPORT. Memory: a read after a write, and the canonical form, which every memory operation keeps. -/

namespace Sys2Proof.Machine

@[simp] theorem Memory.readAt_nil (a : Nat) : Memory.readAt [] a = resetByte a := rfl

theorem Memory.readAt_cons (c : Host.Cell) (m : Memory) (a : Nat) :
    Memory.readAt (c :: m) a = if a = c.1 then c.2 else Memory.readAt m a := rfl

/-- Leaving out an address makes it read as the reset contents and changes no other. -/
theorem Memory.readAt_without (m : Memory) (a b : Nat) :
    (m.without a).readAt b = if b = a then resetByte b else m.readAt b := by
  induction m with
  | nil => simp [Memory.without]
  | cons c m ih =>
    unfold Memory.without at ih ⊢
    by_cases h : c.1 = a
    · rw [List.filter_cons_of_neg (by simp [h]), ih, Memory.readAt_cons, h]
      by_cases hb : b = a <;> simp [hb]
    · rw [List.filter_cons_of_pos (by simp [h]), Memory.readAt_cons, Memory.readAt_cons, ih]
      by_cases hb : b = c.1
      · simp [hb, h]
      · simp [hb]

/-- Placing an entry makes its address read as its byte, if no entry for the address comes before it. -/
theorem Memory.readAt_place (m : Memory) (a b : Nat) (u : Byte) (h : ∀ c ∈ m, c.1 ≠ a) :
    (m.place a u).readAt b = if b = a then u else m.readAt b := by
  induction m with
  | nil => simp [Memory.place, Memory.readAt_cons]
  | cons c m ih =>
    have hc : c.1 ≠ a := h c (by simp)
    have hm : ∀ d ∈ m, d.1 ≠ a := fun d hd => h d (by simp [hd])
    unfold Memory.place
    split
    · rw [Memory.readAt_cons]
    · rw [Memory.readAt_cons, Memory.readAt_cons, ih hm]
      by_cases hb : b = c.1
      · simp [hb, hc]
      · simp [hb]

theorem Memory.mem_without (m : Memory) (a : Nat) : ∀ c ∈ m.without a, c.1 ≠ a := by
  intro c hc
  simpa using (List.mem_filter.mp hc).2

/-- A read after a write (20_memory.md R31, R32, R41). -/
theorem Memory.readAt_writeAt (m : Memory) (a b : Nat) (u : Byte) :
    (m.writeAt a u).readAt b = if b = a then u else m.readAt b := by
  unfold Memory.writeAt
  split
  · rename_i h
    rw [Memory.readAt_without]
    by_cases hb : b = a <;> simp [hb, h]
  · rw [Memory.readAt_place _ _ _ _ (Memory.mem_without m a), Memory.readAt_without]
    by_cases hb : b = a <;> simp [hb]

@[simp] theorem State.byteAt_setByte (s : State) (a b : Nat) (u : Byte) :
    (s.setByte a u).byteAt b = if b = a then u else s.byteAt b :=
  Memory.readAt_writeAt s.mem a b u

/-! ## The canonical form -/

theorem Memory.wfFrom_cons (lo : Nat) (c : Host.Cell) (m : Memory) :
    Memory.wfFrom lo (c :: m) = true ↔
      lo ≤ c.1 ∧ c.1 < 4096 ∧ c.2 ≠ resetByte c.1 ∧ Memory.wfFrom (c.1 + 1) m = true := by
  simp [Memory.wfFrom, and_assoc]

theorem Memory.wfFrom_mono {lo lo' : Nat} {m : Memory} (h : Memory.wfFrom lo m = true) (hl : lo' ≤ lo) :
    Memory.wfFrom lo' m = true := by
  cases m with
  | nil => rfl
  | cons c m =>
    rw [Memory.wfFrom_cons] at h ⊢
    exact ⟨hl.trans h.1, h.2⟩

theorem Memory.wfFrom_without {lo : Nat} {m : Memory} (a : Nat) (h : Memory.wfFrom lo m = true) :
    Memory.wfFrom lo (m.without a) = true := by
  induction m generalizing lo with
  | nil => rfl
  | cons c m ih =>
    rw [Memory.wfFrom_cons] at h
    unfold Memory.without at ih ⊢
    by_cases hc : c.1 = a
    · rw [List.filter_cons_of_neg (by simp [hc])]
      exact Memory.wfFrom_mono (ih h.2.2.2) (by omega)
    · rw [List.filter_cons_of_pos (by simp [hc]), Memory.wfFrom_cons]
      exact ⟨h.1, h.2.1, h.2.2.1, ih h.2.2.2⟩

theorem Memory.wfFrom_place {lo : Nat} {m : Memory} {a : Nat} {u : Byte} (h : Memory.wfFrom lo m = true)
    (hn : ∀ c ∈ m, c.1 ≠ a) (hl : lo ≤ a) (ha : a < 4096) (hu : u ≠ resetByte a) :
    Memory.wfFrom lo (m.place a u) = true := by
  induction m generalizing lo with
  | nil => simp [Memory.place, hl, ha, hu, Memory.wfFrom]
  | cons c m ih =>
    have hc : c.1 ≠ a := hn c (by simp)
    rw [Memory.wfFrom_cons] at h
    unfold Memory.place
    split
    · rename_i hlt
      rw [Memory.wfFrom_cons, Memory.wfFrom_cons]
      exact ⟨hl, ha, hu, by simp only; omega, h.2⟩
    · rw [Memory.wfFrom_cons]
      exact ⟨h.1, h.2.1, h.2.2.1, ih h.2.2.2 (fun d hd => hn d (by simp [hd])) (by omega)⟩

/-- A write inside the address space keeps the canonical form. -/
theorem Memory.wf_writeAt {m : Memory} {a : Nat} (u : Byte) (h : m.wf = true) (ha : a < 4096) :
    (m.writeAt a u).wf = true := by
  unfold Memory.wf Memory.writeAt at *
  split
  · exact Memory.wfFrom_without a h
  · rename_i hu
    exact Memory.wfFrom_place (Memory.wfFrom_without a h) (Memory.mem_without m a) (Nat.zero_le a) ha hu

theorem Memory.wfFrom_ofRange (f : Nat → Byte) (lo n : Nat) (h : lo + n ≤ 4096) :
    Memory.wfFrom lo ((List.range' lo n).filterMap fun a => if f a = resetByte a then none else some (a, f a)) = true := by
  induction n generalizing lo with
  | zero => rfl
  | succ n ih =>
    rw [List.range'_succ, List.filterMap_cons]
    have := ih (lo + 1) (by omega)
    by_cases hf : f lo = resetByte lo
    · simp only [hf, if_true]
      exact Memory.wfFrom_mono this (by omega)
    · simp only [hf, if_false, Memory.wfFrom_cons]
      exact ⟨le_refl _, by omega, hf, this⟩

/-- Memory built from a byte for each address is canonical, whatever the bytes are. -/
theorem Memory.wf_ofBytes (f : Nat → Byte) : (Memory.ofBytes f).wf = true := by
  unfold Memory.ofBytes Memory.wf
  rw [List.range_eq_range']
  exact Memory.wfFrom_ofRange f 0 _ (by simp)

/-- Memory after a fault is canonical, whatever the free values are. -/
theorem takeFault_mem_wf (r : Raise) (a : Option Word) (s : State) : (takeFault r a s).mem.wf = true := by
  rw [takeFault_mem]; exact Memory.wf_ofBytes _

/-- Memory at reset is canonical. -/
theorem State.reset_mem_wf : State.reset.mem.wf = true := rfl

/-! ## MemRead and MemWrite -/

theorem memRead_ok {s : State} {a : Nat} (h : a < 4096) : memRead s a = .ok (s.byteAt a) := by
  exact if_neg (Nat.not_le.mpr h)

theorem memRead_error {s : State} {a : Nat} (h : 4096 ≤ a) : memRead s a = .error ⟨.memOutOfRange, a⟩ := by
  exact if_pos h

theorem memWrite_ok {s : State} {a : Nat} {b : Byte} (h : a < 4096) : memWrite s a b = .ok (s.setByte a b) := by
  exact if_neg (Nat.not_le.mpr h)

theorem memWrite_error {s : State} {a : Nat} {b : Byte} (h : 4096 ≤ a) :
    memWrite s a b = .error ⟨.memOutOfRange, a⟩ := by
  exact if_pos h

end Sys2Proof.Machine
end

