-- ==== Sys2Proof/Laws/Ops.lean ====
section
/-! SUPPORT. One lemma per shared operation that says once everything it can do; later proofs cite it instead of unfolding the
operation. -/

namespace Sys2Proof.Machine

/-! ## Finishing a rule -/

theorem finish_ok (s t : State) : finish s (.ok t) = .next t := rfl

theorem finish_error (s : State) (r : Raise) : finish s (.error r) = .next (takeFault r (some s.instrAddr) s) := rfl

theorem whenRunning_of_running {s : State} (o : Out) (h : s.status = .running) : whenRunning s o = o := by
  unfold whenRunning; rw [h]

theorem whenRunning_of_faulted {s : State} (o : Out) {k : FaultKind} {n : Nat} {a : Option Word}
    (h : s.status = .faulted k n a) : whenRunning s o = .fault (.coreFaulted k n a) := by
  unfold whenRunning; rw [h]

/-! ## Loops -/

/-- A loop whose every round succeeds from a state that meets `P k`, and leaves one that meets `P (k + 1)`, succeeds. -/
theorem forUpTo_ok {n : Nat} {body : Nat → State → Result} {s : State} (P : Nat → State → Prop) (h0 : P 0 s)
    (hb : ∀ k t, k < n → P k t → ∃ u, body k t = .ok u ∧ P (k + 1) u) : ∃ t, forUpTo n body s = .ok t ∧ P n t := by
  induction n with
  | zero => exact ⟨s, rfl, h0⟩
  | succ n ih =>
    obtain ⟨t, ht, hp⟩ := ih fun k t hk => hb k t (by omega)
    obtain ⟨u, hu, hq⟩ := hb n t (by omega) hp
    exact ⟨u, by simp only [forUpTo, ht, hu], hq⟩

/-- A fault of an earlier round is the loop's. -/
theorem forUpTo_error_of_le {m n : Nat} {body : Nat → State → Result} {s : State} {r : Raise}
    (h : forUpTo m body s = .error r) (hmn : m ≤ n) : forUpTo n body s = .error r := by
  induction n, hmn using Nat.le_induction with
  | base => exact h
  | succ n _ ih => simp only [forUpTo, ih]

/-- A loop whose rounds before `m` succeed and whose round `m` raises a fault raises that fault. -/
theorem forUpTo_error {m n : Nat} {body : Nat → State → Result} {s : State} {r : Raise} (P : Nat → State → Prop)
    (h0 : P 0 s) (hmn : m < n) (hb : ∀ k t, k < m → P k t → ∃ u, body k t = .ok u ∧ P (k + 1) u)
    (he : ∀ t, P m t → body m t = .error r) : forUpTo n body s = .error r := by
  obtain ⟨t, ht, hp⟩ := forUpTo_ok P h0 hb
  exact forUpTo_error_of_le (m := m + 1) (by simp only [forUpTo, ht, he t hp]) hmn

/-- A loop that raises nothing keeps what each round keeps. -/
theorem loopUpTo_inv {n : Nat} {body : Nat → State → State} {s : State} (P : Nat → State → Prop) (h0 : P 0 s)
    (hb : ∀ k t, k < n → P k t → P (k + 1) (body k t)) : P n (loopUpTo n body s) := by
  induction n with
  | zero => exact h0
  | succ n ih => exact hb n _ (by omega) (ih fun k t hk => hb k t (by omega))

theorem regIndex_toNat {k : Nat} (h : k < 16) : (regIndex k).toNat = k := by
  unfold regIndex; rw [BitVec.toNat_ofNat]; omega

theorem regIndex_of_toNat (x : Nibble) : regIndex x.toNat = x := by
  unfold regIndex; simp

/-! ## Stores and loads of V[0..n-1] -/

/-- FX55's loop inside memory: the stored bytes, and everything else as it was. -/
theorem storeRegs_ok {n : Nat} {s : State} (h : n = 0 ∨ s.effAddr n ≤ 4096) :
    ∃ m, forUpTo n storeReg s = .ok (s.setMem m) ∧
      (∀ a, m.readAt a = if s.effAddr 0 ≤ a ∧ a < s.effAddr n then s.reg (regIndex (a - s.effAddr 0)) else s.byteAt a) ∧
      (s.mem.wf = true → m.wf = true) := by
  obtain ⟨t, ht, m, rfl, hm, hw⟩ := forUpTo_ok (n := n) (body := storeReg) (s := s)
    (fun k t => ∃ m, t = s.setMem m ∧
      (∀ a, m.readAt a = if s.effAddr 0 ≤ a ∧ a < s.effAddr k then s.reg (regIndex (a - s.effAddr 0)) else s.byteAt a) ∧
      (s.mem.wf = true → m.wf = true))
    ⟨s.mem, rfl, fun a => by rw [if_neg (by omega)]; rfl, id⟩
    (by
      rintro k t hk ⟨m, rfl, hm, hw⟩
      have ha : s.effAddr k < 4096 := by
        unfold State.effAddr at *; omega
      refine ⟨s.setMem (m.writeAt (s.effAddr k) (s.reg (regIndex k))), ?_, _, rfl, ?_, fun h0 => ?_⟩
      · unfold storeReg
        exact memWrite_ok ha
      · intro a
        rw [Memory.readAt_writeAt, hm]
        have e : ∀ j, s.effAddr j = s.i.toNat + j := fun _ => rfl
        simp only [e]
        by_cases h1 : a = s.i.toNat + k
        · subst h1; simp
        · simp only [h1, if_false]
          congr 1
          simp only [eq_iff_iff]; omega
      · exact Memory.wf_writeAt _ (hw h0) ha)
  exact ⟨m, ht, hm, hw⟩

/-- FX55's loop where an address is outside memory: the first such address. -/
theorem storeRegs_error {n : Nat} {s : State} (h0 : 0 < n) (h : 4096 < s.effAddr n) :
    forUpTo n storeReg s = .error ⟨.memOutOfRange, max s.i.toNat 4096⟩ := by
  unfold State.effAddr at h
  refine forUpTo_error (m := 4096 - s.i.toNat) (fun _ t => t.i = s.i) rfl (by omega) ?_ ?_
  · intro k t hk ht
    refine ⟨_, memWrite_ok ?_, ?_⟩
    · unfold State.effAddr; rw [ht]; omega
    · simpa using ht
  · intro t ht
    unfold storeReg
    rw [memWrite_error (by unfold State.effAddr; rw [ht]; omega)]
    unfold State.effAddr
    rw [ht, show s.i.toNat + (4096 - s.i.toNat) = max s.i.toNat 4096 by omega]

/-- FX65's loop inside memory: the loaded registers, and everything else as it was. -/
theorem loadRegs_ok {n : Nat} {s : State} (hn : n ≤ 16) (h : n = 0 ∨ s.effAddr n ≤ 4096) :
    ∃ w, forUpTo n loadReg s = .ok { s with v := w } ∧
      ∀ r : Nibble, ({ s with v := w } : State).reg r = if r.toNat < n then s.byteAt (s.effAddr r.toNat) else s.reg r := by
  obtain ⟨t, ht, w, rfl, hw⟩ := forUpTo_ok (n := n) (body := loadReg) (s := s)
    (fun k t => ∃ w, t = { s with v := w } ∧
      ∀ r : Nibble, t.reg r = if r.toNat < k then s.byteAt (s.effAddr r.toNat) else s.reg r)
    ⟨s.v, rfl, fun r => by simp⟩
    (by
      rintro k t hk ⟨w, rfl, hw⟩
      have ha : s.effAddr k < 4096 := by
        unfold State.effAddr at *; omega
      refine ⟨State.setReg { s with v := w } (regIndex k) (s.byteAt (s.effAddr k)), ?_, _, rfl, ?_⟩
      · unfold loadReg
        rw [show ({ s with v := w } : State).effAddr k = s.effAddr k from rfl, memRead_ok ha]
        rfl
      · intro r
        rw [State.reg_setReg, hw]
        by_cases h1 : r = regIndex k
        · have : r.toNat = k := by rw [h1, regIndex_toNat (by omega)]
          rw [if_pos h1, if_pos (by omega), this]
        · have : r.toNat ≠ k := fun h2 => h1 (by rw [← h2, regIndex_of_toNat])
          rw [if_neg h1]
          congr 1
          simp only [eq_iff_iff]; omega)
  exact ⟨w, ht, hw⟩

/-- FX65's loop where an address is outside memory: the first such address. -/
theorem loadRegs_error {n : Nat} {s : State} (h0 : 0 < n) (h : 4096 < s.effAddr n) :
    forUpTo n loadReg s = .error ⟨.memOutOfRange, max s.i.toNat 4096⟩ := by
  unfold State.effAddr at h
  refine forUpTo_error (m := 4096 - s.i.toNat) (fun _ t => t.i = s.i) rfl (by omega) ?_ ?_
  · intro k t hk ht
    have ha : t.effAddr k < 4096 := by unfold State.effAddr; rw [ht]; omega
    exact ⟨t.setReg (regIndex k) (t.byteAt (t.effAddr k)), by unfold loadReg; rw [memRead_ok ha], ht⟩
  · intro t ht
    unfold loadReg
    rw [memRead_error (by unfold State.effAddr; rw [ht]; omega)]
    unfold State.effAddr
    rw [ht, show s.i.toNat + (4096 - s.i.toNat) = max s.i.toNat 4096 by omega]

/-- FX33 inside memory: three writes. -/
theorem storeBcd_ok {v : Byte} {s : State} (h : s.effAddr 2 < 4096) :
    storeBcd v s = .ok (((s.setByte (s.effAddr 0) (bcdHundreds v)).setByte (s.effAddr 1) (bcdTens v)).setByte
      (s.effAddr 2) (bcdOnes v)) := by
  unfold State.effAddr at *
  unfold storeBcd State.effAddr
  rw [memWrite_ok (by omega)]
  simp only [State.setByte_i]
  rw [memWrite_ok (by omega)]
  simp only [State.setByte_i]
  rw [memWrite_ok (by omega)]

/-- FX33 where an address is outside memory: the first such address. -/
theorem storeBcd_error {v : Byte} {s : State} (h : 4096 ≤ s.effAddr 2) :
    storeBcd v s = .error ⟨.memOutOfRange, max s.i.toNat 4096⟩ := by
  unfold State.effAddr at *
  unfold storeBcd State.effAddr
  by_cases h0 : 4096 ≤ s.i.toNat
  · rw [memWrite_error (by omega), max_eq_left h0]
    rfl
  · rw [memWrite_ok (by omega)]
    simp only [State.setByte_i]
    by_cases h1 : 4096 ≤ s.i.toNat + 1
    · rw [memWrite_error h1, max_eq_right (by omega), show s.i.toNat + 1 = 4096 by omega]
    · rw [memWrite_ok (by omega)]
      simp only [State.setByte_i]
      rw [memWrite_error h, max_eq_right (by omega), show s.i.toNat + 2 = 4096 by omega]

/-! ## Call stack and keypad -/

theorem pushPc_ok {s : State} (h : s.sp.val < 16) :
    pushPc s = .ok ((s.setStack (s.stack.set s.sp.val s.pc h)).setSp ⟨s.sp.val + 1, Nat.succ_lt_succ h⟩) := by
  unfold pushPc; rw [dif_pos h]

theorem pushPc_error {s : State} (h : ¬ s.sp.val < 16) :
    pushPc s = .error ⟨.stackOverflow, s.instrAddr.toNat⟩ := by
  unfold pushPc; rw [dif_neg h]

theorem popPc_ok {s : State} {k : Nat} (hk : k < 16) (h : k + 1 = s.sp.val) :
    popPc s = .ok ((s.setPc s.stack[k]).setSp ⟨k, Nat.lt_succ_of_lt hk⟩) := by
  obtain rfl : k = s.sp.val - 1 := by omega
  unfold popPc; rw [dif_pos (by omega)]

theorem popPc_error {s : State} (h : s.sp.val = 0) : popPc s = .error ⟨.stackUnderflow, s.instrAddr.toNat⟩ := by
  unfold popPc; rw [dif_neg (by omega)]

theorem skipOnKey_ok {x : Nibble} {b : Bool} {s : State} (h : (s.reg x).toNat < 16) :
    skipOnKey x b s = .ok (s.skipIf (s.key[(s.reg x).toNat] == b)) := by
  unfold skipOnKey keyAt; rw [dif_pos h]

theorem skipOnKey_error {x : Nibble} {b : Bool} {s : State} (h : ¬ (s.reg x).toNat < 16) :
    skipOnKey x b s = .error ⟨.keyIndexOutOfRange, (s.reg x).toNat⟩ := by
  unfold skipOnKey keyAt; rw [dif_neg h]

/-- The keypad scan finds the lowest pressed key. -/
theorem State.firstKey_eq_some {s : State} {k : Nat} (h : k < 16) (hk : s.key[k] = true)
    (hlow : ∀ j (hj : j < k), (s.key[j]'(Nat.lt_trans hj h)) = false) : s.firstKey = some k := by
  unfold State.firstKey
  rw [List.findIdx?_eq_some_iff_getElem]
  exact ⟨by simpa using h, by simpa using hk, fun j hj => by simpa using hlow j hj⟩

theorem State.firstKey_eq_none {s : State} (h : ∀ k (h : k < 16), s.key[k] = false) : s.firstKey = none := by
  unfold State.firstKey
  rw [List.findIdx?_eq_none_iff]
  intro b hb
  obtain ⟨k, hk, rfl⟩ := List.mem_iff_getElem.mp hb
  simpa using h k (by simpa using hk)

/-! ## Drawing -/

/-- `t` differs from `s` in the pixel buffer and VF only. -/
def OnlyDrawn (s t : State) : Prop :=
  (∀ r, r ≠ vf → t.reg r = s.reg r) ∧ ∃ p w, t = { s with pix := p, v := w }

theorem OnlyDrawn.refl (s : State) : OnlyDrawn s s := ⟨fun _ _ => rfl, s.pix, s.v, rfl⟩

theorem OnlyDrawn.trans {s t u : State} (h : OnlyDrawn s t) (h' : OnlyDrawn t u) : OnlyDrawn s u := by
  obtain ⟨hr, p, w, rfl⟩ := h
  obtain ⟨hr', p', w', rfl⟩ := h'
  exact ⟨fun r hv => (hr' r hv).trans (hr r hv), p', w', rfl⟩

theorem OnlyDrawn.setReg (s : State) (b : Byte) : OnlyDrawn s (s.setReg vf b) :=
  ⟨fun r h => State.reg_setReg_of_ne s vf r b h, s.pix, _, rfl⟩

theorem OnlyDrawn.setPixel (s : State) (row col : Nat) (b : Bool) : OnlyDrawn s (s.setPixel row col b) := by
  refine ⟨fun r _ => State.reg_setPixel s row col b r, ?_⟩
  unfold State.setPixel
  split
  · exact ⟨_, s.v, rfl⟩
  · exact ⟨s.pix, s.v, rfl⟩

theorem drawPixel_only (row col : Nat) (bit : Bool) (s : State) : OnlyDrawn s (drawPixel row col bit s) := by
  unfold drawPixel
  split
  · refine OnlyDrawn.trans ?_ (OnlyDrawn.setPixel _ _ _ _)
    split
    · exact OnlyDrawn.setReg s 1
    · exact OnlyDrawn.refl s
  · exact OnlyDrawn.refl s

/-- One sprite bit XORs its pixel, if that is on the screen, and no other. -/
theorem drawPixel_pixel (row col : Nat) (bit : Bool) (s : State) (r c : Nat) (hr : r < 32)
    (hc : c < 64) :
    (drawPixel row col bit s).pixel r c = (s.pixel r c ^^ (bit && decide (r = row ∧ c = col))) := by
  unfold drawPixel
  split
  · rename_i h
    simp only [Bool.and_eq_true, decide_eq_true_eq] at h
    rw [State.pixel_setPixel _ _ _ _ _ _ h.2 h.1.2, h.1.1]
    split
    · rename_i h'
      obtain ⟨rfl, rfl⟩ := h'
      simp
    · rename_i h'
      rw [show decide (r = row ∧ c = col) = false by simpa using h']
      split <;> simp
  · rename_i h
    cases bit
    · simp
    · rw [show decide (r = row ∧ c = col) = false by
        rw [decide_eq_false_iff_not]
        rintro ⟨rfl, rfl⟩
        simp [hr, hc] at h]
      simp

/-- One sprite bit makes VF 1 if it meets a pixel that is on, and else leaves VF. -/
theorem drawPixel_vf (row col : Nat) (bit : Bool) (s : State) :
    (drawPixel row col bit s).reg vf = if bit = true ∧ s.pixel row col = true then 1 else s.reg vf := by
  unfold drawPixel
  by_cases hb : bit = true
  · by_cases hs : row < 32 ∧ col < 64
    · rw [if_pos (by simp [hb, hs.1, hs.2]), State.reg_setPixel, hb]
      by_cases hp : s.pixel row col = true
      · simp [hp]
      · simp [hp]
    · have hp : s.pixel row col = false := by unfold State.pixel; rw [dif_neg hs]
      rw [if_neg (by simpa [Config.screenW, Config.screenH] using fun _ h1 h2 => hs ⟨h2, h1⟩), hp]
      simp
  · simp [hb]

/-- What drawing a part of a sprite does: `sprite r c` is the part's pixel at each place of the screen, each place in the
part at most once. -/
structure Drawn (sprite : Nat → Nat → Bool) (s t : State) : Prop where
  only : OnlyDrawn s t
  pixel : ∀ r c, r < 32 → c < 64 → t.pixel r c = (s.pixel r c ^^ sprite r c)
  hit : (∃ r c, r < 32 ∧ c < 64 ∧ sprite r c = true ∧ s.pixel r c = true) → t.reg vf = 1
  miss : (∀ r c, r < 32 → c < 64 → sprite r c = true → s.pixel r c = false) →
    t.reg vf = s.reg vf
  one : s.reg vf = 1 → t.reg vf = 1

theorem Drawn.nothing {sprite : Nat → Nat → Bool} (s : State) (h : ∀ r c, sprite r c = false) : Drawn sprite s s where
  only := OnlyDrawn.refl s
  pixel r c _ _ := by simp [h]
  hit := by rintro ⟨r, c, _, _, h1, _⟩; simp [h] at h1
  miss _ := rfl
  one := id

/-- Two disjoint parts drawn one after the other are one part. -/
theorem Drawn.append {p q w : Nat → Nat → Bool} {s t u : State} (h : Drawn p s t) (h' : Drawn q t u)
    (hw : ∀ r c, r < 32 → c < 64 → w r c = (p r c || q r c))
    (hd : ∀ r c, r < 32 → c < 64 → p r c = true → q r c = false) : Drawn w s u where
  only := h.only.trans h'.only
  pixel r c hr hc := by
    rw [h'.pixel r c hr hc, h.pixel r c hr hc, hw r c hr hc]
    have := hd r c hr hc
    cases hp : p r c <;> cases hq : q r c <;> simp_all
  hit := by
    rintro ⟨r, c, hr, hc, h1, h2⟩
    rw [hw r c hr hc] at h1
    by_cases hp : p r c = true
    · exact h'.one (h.hit ⟨r, c, hr, hc, hp, h2⟩)
    · refine h'.hit ⟨r, c, hr, hc, by simpa [hp] using h1, ?_⟩
      rw [h.pixel r c hr hc, h2]
      simpa using hp
  miss hm := by
    have h1 : t.reg vf = s.reg vf := h.miss fun r c hr hc hp => hm r c hr hc (by rw [hw r c hr hc, hp]; simp)
    rw [← h1]
    refine h'.miss fun r c hr hc hq => ?_
    have hs := hm r c hr hc (by rw [hw r c hr hc, hq]; simp)
    rw [h.pixel r c hr hc, hs]
    cases hp : p r c
    · rfl
    · rw [hd r c hr hc hp] at hq; exact absurd hq (by decide)
  one h1 := h'.one (h.one h1)

theorem drawPixel_drawn (row col : Nat) (bit : Bool) (s : State) :
    Drawn (fun r c => bit && decide (r = row ∧ c = col)) s (drawPixel row col bit s) where
  only := drawPixel_only row col bit s
  pixel r c hr hc := drawPixel_pixel row col bit s r c hr hc
  hit := by
    rintro ⟨r, c, hr, hc, h1, h2⟩
    simp only [Bool.and_eq_true, decide_eq_true_eq] at h1
    obtain ⟨hb, rfl, rfl⟩ := h1
    rw [drawPixel_vf, if_pos ⟨hb, h2⟩]
  miss hm := by
    rw [drawPixel_vf, if_neg]
    rintro ⟨hb, hp⟩
    have hs : row < 32 ∧ col < 64 := by
      by_contra h
      unfold State.pixel at hp
      rw [dif_neg h] at hp
      exact absurd hp (by decide)
    rw [hm row col hs.1 hs.2 (by simp [hb])] at hp
    exact absurd hp (by decide)
  one h1 := by rw [drawPixel_vf, h1]; simp

/-- The part of a sprite that one row byte is. -/
def rowSprite (row cx : Nat) (b : Byte) (n : Nat) (r c : Nat) : Bool :=
  decide (r = row ∧ cx ≤ c ∧ c < cx + n) && spriteBit b (c - cx)

theorem drawByte_drawn (row cx : Nat) (b : Byte) (s : State) : Drawn (rowSprite row cx b 8) s (drawByte row cx b s) := by
  unfold drawByte
  refine loopUpTo_inv (fun n t => Drawn (rowSprite row cx b n) s t)
    (Drawn.nothing s fun r c => by
      unfold rowSprite
      rw [Bool.and_eq_false_iff, decide_eq_false_iff_not]; left
      omega) fun k t hk h => ?_
  refine h.append (drawPixel_drawn _ _ _ _) (fun r c _ _ => ?_) fun r c _ _ h1 => ?_
  · unfold rowSprite
    by_cases h1 : r = row ∧ c = cx + k
    · obtain ⟨rfl, rfl⟩ := h1
      simp
    · rw [show decide (r = row ∧ c = cx + k) = false by simpa using h1]
      rw [Bool.and_false, Bool.or_false]
      congr 1
      simp only [decide_eq_decide]
      omega
  · unfold rowSprite at h1
    simp only [Bool.and_eq_true, decide_eq_true_eq] at h1
    rw [Bool.and_eq_false_iff, decide_eq_false_iff_not (p := _ ∧ _)]; right
    omega

/-- The part of a sprite that its first n rows are; `byte r` is row r. -/
def rowsSprite (cx cy : Nat) (byte : Nat → Byte) (n : Nat) (r c : Nat) : Bool :=
  decide (cy ≤ r ∧ r < cy + n ∧ cx ≤ c ∧ c < cx + 8) && spriteBit (byte (r - cy)) (c - cx)

theorem OnlyDrawn.byteAt {s t : State} (h : OnlyDrawn s t) (a : Nat) : t.byteAt a = s.byteAt a := by
  obtain ⟨_, p, w, rfl⟩ := h; rfl

theorem OnlyDrawn.effAddr {s t : State} (h : OnlyDrawn s t) (k : Nat) : t.effAddr k = s.effAddr k := by
  obtain ⟨_, p, w, rfl⟩ := h; rfl

/-- The rows of a sprite, all in memory. -/
theorem drawRows_ok {n : Nat} {s : State} (cx cy : Nat) (h : n = 0 ∨ s.effAddr n ≤ 4096) :
    ∃ t, forUpTo n (drawRow cx cy) s = .ok t ∧ Drawn (rowsSprite cx cy (fun k => s.byteAt (s.effAddr k)) n) s t := by
  refine forUpTo_ok (fun k t => Drawn (rowsSprite cx cy (fun j => s.byteAt (s.effAddr j)) k) s t)
    (Drawn.nothing s fun r c => ?_) fun k t hk hd => ?_
  · unfold rowsSprite
    rw [Bool.and_eq_false_iff, decide_eq_false_iff_not]; left
    omega
  · have ha : t.effAddr k < 4096 := by
      rw [hd.only.effAddr]; unfold State.effAddr at *; omega
    refine ⟨drawByte (cy + k) cx (t.byteAt (t.effAddr k)) t, by unfold drawRow; rw [memRead_ok ha], ?_⟩
    refine hd.append (drawByte_drawn _ _ _ _) (fun r c _ _ => ?_) fun r c _ _ h1 => ?_
    · unfold rowsSprite rowSprite
      rw [hd.only.byteAt, hd.only.effAddr]
      by_cases h1 : r = cy + k
      · subst h1
        rw [show decide (cy ≤ cy + k ∧ cy + k < cy + k ∧ cx ≤ c ∧ c < cx + 8) = false by simp]
        simp
      · rw [show decide (r = cy + k ∧ cx ≤ c ∧ c < cx + 8) = false by simp [h1]]
        rw [Bool.false_and, Bool.or_false]
        congr 1
        simp only [decide_eq_decide]
        omega
    · unfold rowsSprite at h1
      unfold rowSprite
      simp only [Bool.and_eq_true, decide_eq_true_eq] at h1
      rw [Bool.and_eq_false_iff, decide_eq_false_iff_not]; left
      omega

/-- The rows of a sprite where one is outside memory: the first such address. -/
theorem drawRows_error {n : Nat} {s : State} (cx cy : Nat) (h0 : 0 < n) (h : 4096 < s.effAddr n) :
    forUpTo n (drawRow cx cy) s = .error ⟨.memOutOfRange, max s.i.toNat 4096⟩ := by
  unfold State.effAddr at h
  refine forUpTo_error (m := 4096 - s.i.toNat) (fun _ t => OnlyDrawn s t) (OnlyDrawn.refl s) (by omega) ?_ ?_
  · intro k t hk ht
    have ha : t.effAddr k < 4096 := by rw [ht.effAddr]; unfold State.effAddr; omega
    exact ⟨_, by unfold drawRow; rw [memRead_ok ha], ht.trans (drawByte_drawn _ _ _ _).only⟩
  · intro t ht
    unfold drawRow
    rw [memRead_error (by rw [ht.effAddr]; unfold State.effAddr; omega), ht.effAddr]
    unfold State.effAddr
    rw [show s.i.toNat + (4096 - s.i.toNat) = max s.i.toNat 4096 by omega]

/-- DXYN where its bytes are in memory. -/
theorem drawSprite_ok {x y n : Nibble} {s : State} (h : n = 0 ∨ s.effAddr n.toNat ≤ 4096) :
    ∃ t, drawSprite x y n s = .ok (t.setRedraw true) ∧
      Drawn (rowsSprite (s.originColumn x) (s.originRow y) (fun k => s.byteAt (s.effAddr k)) n.toNat) (s.setReg vf 0) t := by
  have h' : n.toNat = 0 ∨ (s.setReg vf 0).effAddr n.toNat ≤ 4096 := by
    rcases h with rfl | h
    · exact .inl rfl
    · exact .inr h
  obtain ⟨t, ht, hd⟩ := drawRows_ok (s.originColumn x) (s.originRow y) h'
  exact ⟨t, by unfold drawSprite; rw [ht], hd⟩

/-- DXYN where one of its bytes is outside memory. -/
theorem drawSprite_error {x y n : Nibble} {s : State} (h0 : 0 < n.toNat) (h : 4096 < s.effAddr n.toNat) :
    drawSprite x y n s = .error ⟨.memOutOfRange, max s.i.toNat 4096⟩ := by
  unfold drawSprite
  rw [drawRows_error (s := s.setReg vf 0) _ _ h0 h]
  rfl

end Sys2Proof.Machine
end

