-- ==== Sys2Proof/Laws/PerInstr.lean ====
section
/-! SUPPORT. The fields of each of the three formats, and, instruction by instruction, that its encoding is of its own kind. -/

namespace Sys2Proof

/-! ## The formats of 30_encoding.md R47 -/

theorem bit_addr (f : Nibble) (nnn : Addr) (k : Nat) :
    (show Word from f ++ nnn).getLsbD k = if k < 12 then nnn.getLsbD k else f.getLsbD (k - 12) :=
  BitVec.getLsbD_append

theorem bit_byte (f x : Nibble) (nn : Byte) (k : Nat) :
    (show Word from f ++ x ++ nn).getLsbD k =
      if k < 8 then nn.getLsbD k else if k - 8 < 4 then x.getLsbD (k - 8) else f.getLsbD (k - 8 - 4) := by
  rw [← BitVec.getLsbD_append]
  exact BitVec.getLsbD_append

theorem bit_nibbles (f x y n : Nibble) (k : Nat) :
    (show Word from f ++ x ++ y ++ n).getLsbD k =
      if k < 4 then n.getLsbD k else if k - 4 < 4 then y.getLsbD (k - 4) else
        if k - 4 - 4 < 4 then x.getLsbD (k - 4 - 4) else f.getLsbD (k - 4 - 4 - 4) := by
  rw [← BitVec.getLsbD_append, ← BitVec.getLsbD_append]
  exact BitVec.getLsbD_append

@[simp] theorem fieldF_addr (f : Nibble) (nnn : Addr) : fieldF (f ++ nnn) = f := by
  refine BitVec.eq_of_getLsbD_eq fun k hk => ?_
  unfold fieldF
  rw [BitVec.getLsbD_extractLsb', bit_addr]
  interval_cases k <;> simp

@[simp] theorem fieldNNN_addr (f : Nibble) (nnn : Addr) : fieldNNN (f ++ nnn) = nnn := by
  refine BitVec.eq_of_getLsbD_eq fun k hk => ?_
  unfold fieldNNN
  rw [BitVec.getLsbD_extractLsb', bit_addr]
  interval_cases k <;> simp

@[simp] theorem fieldF_byte (f x : Nibble) (nn : Byte) : fieldF (f ++ x ++ nn) = f := by
  refine BitVec.eq_of_getLsbD_eq fun k hk => ?_
  unfold fieldF
  rw [BitVec.getLsbD_extractLsb', bit_byte]
  interval_cases k <;> simp

@[simp] theorem fieldX_byte (f x : Nibble) (nn : Byte) : fieldX (f ++ x ++ nn) = x := by
  refine BitVec.eq_of_getLsbD_eq fun k hk => ?_
  unfold fieldX
  rw [BitVec.getLsbD_extractLsb', bit_byte]
  interval_cases k <;> simp

@[simp] theorem fieldNN_byte (f x : Nibble) (nn : Byte) : fieldNN (f ++ x ++ nn) = nn := by
  refine BitVec.eq_of_getLsbD_eq fun k hk => ?_
  unfold fieldNN
  rw [BitVec.getLsbD_extractLsb', bit_byte]
  interval_cases k <;> simp

@[simp] theorem fieldF_nibbles (f x y n : Nibble) : fieldF (f ++ x ++ y ++ n) = f := by
  refine BitVec.eq_of_getLsbD_eq fun k hk => ?_
  unfold fieldF
  rw [BitVec.getLsbD_extractLsb', bit_nibbles]
  interval_cases k <;> simp

@[simp] theorem fieldX_nibbles (f x y n : Nibble) : fieldX (f ++ x ++ y ++ n) = x := by
  refine BitVec.eq_of_getLsbD_eq fun k hk => ?_
  unfold fieldX
  rw [BitVec.getLsbD_extractLsb', bit_nibbles]
  interval_cases k <;> simp

@[simp] theorem fieldY_nibbles (f x y n : Nibble) : fieldY (f ++ x ++ y ++ n) = y := by
  refine BitVec.eq_of_getLsbD_eq fun k hk => ?_
  unfold fieldY
  rw [BitVec.getLsbD_extractLsb', bit_nibbles]
  interval_cases k <;> simp

@[simp] theorem fieldN_nibbles (f x y n : Nibble) : fieldN (f ++ x ++ y ++ n) = n := by
  refine BitVec.eq_of_getLsbD_eq fun k hk => ?_
  unfold fieldN
  rw [BitVec.getLsbD_extractLsb', bit_nibbles]
  interval_cases k <;> simp

end Sys2Proof

namespace Sys2Proof.Laws.EncodedKind

/-- The decoder gives the encoding of an instruction its own kind. -/
def Statement (i : Instr) : Prop := kindOf (encode i) = i.kind

theorem cls : Statement .cls := rfl
theorem ret : Statement .ret := rfl
theorem jp (nnn : Addr) : Statement (.jp nnn) := by simp [Statement, kindOf, encode, Instr.kind]
theorem call (nnn : Addr) : Statement (.call nnn) := by simp [Statement, kindOf, encode, Instr.kind]
theorem seVxNn (x : Nibble) (nn : Byte) : Statement (.seVxNn x nn) := by simp [Statement, kindOf, encode, Instr.kind]
theorem sneVxNn (x : Nibble) (nn : Byte) : Statement (.sneVxNn x nn) := by simp [Statement, kindOf, encode, Instr.kind]
theorem seVxVy (x : Nibble) (y : Nibble) : Statement (.seVxVy x y) := by simp [Statement, kindOf, encode, Instr.kind]
theorem ldVxNn (x : Nibble) (nn : Byte) : Statement (.ldVxNn x nn) := by simp [Statement, kindOf, encode, Instr.kind]
theorem addVxNn (x : Nibble) (nn : Byte) : Statement (.addVxNn x nn) := by simp [Statement, kindOf, encode, Instr.kind]
theorem ldVxVy (x : Nibble) (y : Nibble) : Statement (.ldVxVy x y) := by simp [Statement, kindOf, encode, Instr.kind, kindFamily8]
theorem orVxVy (x : Nibble) (y : Nibble) : Statement (.orVxVy x y) := by simp [Statement, kindOf, encode, Instr.kind, kindFamily8]
theorem andVxVy (x : Nibble) (y : Nibble) : Statement (.andVxVy x y) := by simp [Statement, kindOf, encode, Instr.kind, kindFamily8]
theorem xorVxVy (x : Nibble) (y : Nibble) : Statement (.xorVxVy x y) := by simp [Statement, kindOf, encode, Instr.kind, kindFamily8]
theorem addVxVy (x : Nibble) (y : Nibble) : Statement (.addVxVy x y) := by simp [Statement, kindOf, encode, Instr.kind, kindFamily8]
theorem subVxVy (x : Nibble) (y : Nibble) : Statement (.subVxVy x y) := by simp [Statement, kindOf, encode, Instr.kind, kindFamily8]
theorem shrVx (x : Nibble) (y : Nibble) : Statement (.shrVx x y) := by simp [Statement, kindOf, encode, Instr.kind, kindFamily8]
theorem subnVxVy (x : Nibble) (y : Nibble) : Statement (.subnVxVy x y) := by simp [Statement, kindOf, encode, Instr.kind, kindFamily8]
theorem shlVx (x : Nibble) (y : Nibble) : Statement (.shlVx x y) := by simp [Statement, kindOf, encode, Instr.kind, kindFamily8]
theorem sneVxVy (x : Nibble) (y : Nibble) : Statement (.sneVxVy x y) := by simp [Statement, kindOf, encode, Instr.kind]
theorem ldINnn (nnn : Addr) : Statement (.ldINnn nnn) := by simp [Statement, kindOf, encode, Instr.kind]
theorem jpV0 (nnn : Addr) : Statement (.jpV0 nnn) := by simp [Statement, kindOf, encode, Instr.kind]
theorem rnd (x : Nibble) (nn : Byte) : Statement (.rnd x nn) := by simp [Statement, kindOf, encode, Instr.kind]
theorem drw (x : Nibble) (y : Nibble) (n : Nibble) : Statement (.drw x y n) := by simp [Statement, kindOf, encode, Instr.kind]
theorem skp (x : Nibble) : Statement (.skp x) := by simp [Statement, kindOf, encode, Instr.kind, kindFamilyE]
theorem sknp (x : Nibble) : Statement (.sknp x) := by simp [Statement, kindOf, encode, Instr.kind, kindFamilyE]
theorem ldVxDt (x : Nibble) : Statement (.ldVxDt x) := by simp [Statement, kindOf, encode, Instr.kind, kindFamilyF]
theorem ldVxK (x : Nibble) : Statement (.ldVxK x) := by simp [Statement, kindOf, encode, Instr.kind, kindFamilyF]
theorem ldDtVx (x : Nibble) : Statement (.ldDtVx x) := by simp [Statement, kindOf, encode, Instr.kind, kindFamilyF]
theorem ldStVx (x : Nibble) : Statement (.ldStVx x) := by simp [Statement, kindOf, encode, Instr.kind, kindFamilyF]
theorem addIVx (x : Nibble) : Statement (.addIVx x) := by simp [Statement, kindOf, encode, Instr.kind, kindFamilyF]
theorem ldFVx (x : Nibble) : Statement (.ldFVx x) := by simp [Statement, kindOf, encode, Instr.kind, kindFamilyF]
theorem ldBVx (x : Nibble) : Statement (.ldBVx x) := by simp [Statement, kindOf, encode, Instr.kind, kindFamilyF]
theorem ldMiVx (x : Nibble) : Statement (.ldMiVx x) := by simp [Statement, kindOf, encode, Instr.kind, kindFamilyF]
theorem ldVxMi (x : Nibble) : Statement (.ldVxMi x) := by simp [Statement, kindOf, encode, Instr.kind, kindFamilyF]

end Sys2Proof.Laws.EncodedKind
end

