-- ==== Sys2Proof/Laws/Step.lean ====
section
/-! SUPPORT. What a step can do, said once. -/

namespace Sys2Proof.Machine

theorem fetch_ok {s : State} (h : s.pc.toNat + 1 < 4096) : fetch s = .ok s.wordAtPc := by
  unfold fetch
  rw [memRead_ok (by omega)]
  simp only
  rw [memRead_ok h]
  rfl

/-- A fetch that reaches address 4096 or above faults with the first such address. -/
theorem fetch_error {s : State} (h : 4096 ≤ s.pc.toNat + 1) :
    fetch s = .error ⟨.memOutOfRange, max s.pc.toNat 4096⟩ := by
  unfold fetch
  by_cases h0 : 4096 ≤ s.pc.toNat
  · rw [memRead_error h0, max_eq_left h0]
  · rw [memRead_ok (by omega), max_eq_right (by omega)]
    simp only
    rw [memRead_error h, show s.pc.toNat + 1 = 4096 by omega]

theorem stepOutput_of_running {s : State} (h : s.status = .running) : stepOutput s = cycle s := by
  unfold stepOutput; rw [h]

theorem cycle_fault {s : State} (h : 4096 ≤ s.pc.toNat + 1) :
    cycle s = ⟨.next (takeFault ⟨.memOutOfRange, max s.pc.toNat 4096⟩ (some s.pc) s), none⟩ := by
  unfold cycle; rw [fetch_error h]

theorem cycle_instr {s : State} {i : Instr} (h : s.pc.toNat + 1 < 4096) (hd : decode s.wordAtPc = some i) :
    cycle s = ⟨exec i s.advance, none⟩ := by
  unfold cycle; rw [fetch_ok h]; simp only; rw [hd]

theorem cycle_unknown {s : State} (h : s.pc.toNat + 1 < 4096) (hd : decode s.wordAtPc = none) :
    cycle s = ⟨.next s.advance, some ⟨s.wordAtPc, s.pc⟩⟩ := by
  unfold cycle; rw [fetch_ok h]; simp only; rw [hd]; rfl

/-- A CORE that is not Running has no next state. -/
theorem step_running_of_next {s t : State} (h : step s = .next t) : s.status = .running := by
  unfold step stepOutput at h
  split at h
  · assumption
  · exact absurd h (by simp)

/-- Everything a step that answers a next state can have done: faulted in its fetch, run the decoded instruction on the state
with PC advanced, or passed an UNKNOWN word. -/
theorem step_cases {s t : State} (h : step s = .next t) :
    s.status = .running ∧
    ((4096 ≤ s.pc.toNat + 1 ∧ t = takeFault ⟨.memOutOfRange, max s.pc.toNat 4096⟩ (some s.pc) s) ∨
     (s.pc.toNat + 1 < 4096 ∧ ∃ i, decode s.wordAtPc = some i ∧ exec i s.advance = .next t) ∨
     (s.pc.toNat + 1 < 4096 ∧ decode s.wordAtPc = none ∧ t = s.advance)) := by
  have hr := step_running_of_next h
  refine ⟨hr, ?_⟩
  unfold step at h
  rw [stepOutput_of_running hr] at h
  by_cases hf : 4096 ≤ s.pc.toNat + 1
  · rw [cycle_fault hf] at h
    exact .inl ⟨hf, by injection h with h; exact h.symm⟩
  · have hf' : s.pc.toNat + 1 < 4096 := by omega
    cases hd : decode s.wordAtPc with
    | some i =>
      rw [cycle_instr hf' hd] at h
      exact .inr (.inl ⟨hf', i, rfl, h⟩)
    | none =>
      rw [cycle_unknown hf' hd] at h
      exact .inr (.inr ⟨hf', rfl, by injection h with h; exact h.symm⟩)

end Sys2Proof.Machine
end

