-- ==== Sys2Proof/Laws/Exec.lean ====
section
/-! SUPPORT. What `exec` can do, said once: where a fault is ruled it answers the fault entry, and elsewhere the effect of the
instruction. Claims over all instructions go by cases on these two lemmas. -/

namespace Sys2Proof.Machine

/-- Where 60_exceptions.md R106 rules a fault, the instruction takes it. -/
theorem exec_of_ruled {i : Instr} {s : State} {e : Raise} (h : ruledFault i s = some e) :
    exec i s = .next (takeFault e (some s.instrAddr) s) := by
  cases i <;> simp only [ruledFault, firstOutOfRange, Option.ite_none_right_eq_some, reduceCtorEq] at h <;>
    obtain ⟨hc, he⟩ := h <;> injection he with he <;> subst he
  case ret => unfold exec execRet; simp only; rw [popPc_error (by rw [hc]; rfl)]; rfl
  case call => unfold exec execCall; simp only; rw [pushPc_error (by rw [hc]; decide)]; rfl
  case skp => unfold exec execSkp; simp only; rw [skipOnKey_error (by omega)]; rfl
  case sknp => unfold exec execSknp; simp only; rw [skipOnKey_error (by omega)]; rfl
  case drw => unfold exec execDrw; simp only; rw [drawSprite_error hc.1 hc.2]; rfl
  case ldBVx => unfold exec execLdBVx; simp only; rw [storeBcd_error (by unfold State.effAddr at *; omega)]; rfl
  case ldMiVx => unfold exec execLdMiVx; simp only; rw [storeRegs_error hc.1 hc.2]; rfl
  case ldVxMi => unfold exec execLdVxMi; simp only; rw [loadRegs_error hc.1 hc.2]; rfl

/-- What an instruction that can fault does where it does not; for the others, the equation itself. -/
def Effect (i : Instr) (s t : State) : Prop :=
  match i with
  | .ret => ∃ k, ∃ h : k < 16, k + 1 = s.sp.val ∧ t = (s.setPc s.stack[k]).setSp ⟨k, Nat.lt_succ_of_lt h⟩
  | .call nnn => ∃ h : s.sp.val < 16,
      t = ((s.setStack (s.stack.set s.sp.val s.pc h)).setSp ⟨s.sp.val + 1, Nat.succ_lt_succ h⟩).setPc (zextAddr nnn)
  | .skp x => ∃ h : (s.reg x).toNat < 16, t = s.skipIf (s.key[(s.reg x).toNat] == true)
  | .sknp x => ∃ h : (s.reg x).toNat < 16, t = s.skipIf (s.key[(s.reg x).toNat] == false)
  | .drw x y n => ∃ u, t = u.setRedraw true ∧
      Drawn (rowsSprite (s.originColumn x) (s.originRow y) (fun k => s.byteAt (s.effAddr k)) n.toNat) (s.setReg vf 0) u
  | .ldBVx x => s.effAddr 2 < 4096 ∧
      t = ((s.setByte (s.effAddr 0) (bcdHundreds (s.reg x))).setByte (s.effAddr 1) (bcdTens (s.reg x))).setByte
        (s.effAddr 2) (bcdOnes (s.reg x))
  | .ldMiVx x => ∃ m, t = s.setMem m ∧ (s.mem.wf = true → m.wf = true) ∧
      ∀ a, m.readAt a =
        if s.effAddr 0 ≤ a ∧ a < s.effAddr (x.toNat + 1) then s.reg (regIndex (a - s.effAddr 0)) else s.byteAt a
  | .ldVxMi x => ∃ w, t = { s with v := w } ∧
      ∀ r : Nibble, t.reg r = if r.toNat < x.toNat + 1 then s.byteAt (s.effAddr r.toNat) else s.reg r
  | i => exec i s = .next t

/-- Where no fault is ruled, the instruction has its effect. -/
theorem exec_effect {i : Instr} {s t : State} (hf : ruledFault i s = none) (h : exec i s = .next t) : Effect i s t := by
  have hl := s.sp_le
  cases i
  case ret =>
    simp only [ruledFault, ite_eq_right_iff, reduceCtorEq, imp_false] at hf
    obtain ⟨k, hk⟩ := Nat.exists_eq_succ_of_ne_zero (n := s.sp.val) fun h0 => hf (Fin.ext h0)
    unfold exec execRet at h; simp only at h
    rw [popPc_ok (k := k) (by omega) hk.symm] at h
    injection h with h; exact ⟨k, by omega, hk.symm, h.symm⟩
  case call nnn =>
    simp only [ruledFault, ite_eq_right_iff, reduceCtorEq, imp_false] at hf
    have hne : s.sp.val ≠ 16 := fun h2 => hf (Fin.ext h2)
    have hk : s.sp.val < 16 := by omega
    unfold exec execCall at h; simp only at h
    rw [pushPc_ok hk] at h
    injection h with h; exact ⟨hk, h.symm⟩
  case skp x =>
    simp only [ruledFault, ite_eq_right_iff, reduceCtorEq, imp_false] at hf
    have hk : (s.reg x).toNat < 16 := by omega
    unfold exec execSkp at h; simp only at h
    rw [skipOnKey_ok hk] at h
    injection h with h; exact ⟨hk, h.symm⟩
  case sknp x =>
    simp only [ruledFault, ite_eq_right_iff, reduceCtorEq, imp_false] at hf
    have hk : (s.reg x).toNat < 16 := by omega
    unfold exec execSknp at h; simp only at h
    rw [skipOnKey_ok hk] at h
    injection h with h; exact ⟨hk, h.symm⟩
  case drw x y n =>
    simp only [ruledFault, firstOutOfRange, ite_eq_right_iff, reduceCtorEq, imp_false] at hf
    obtain ⟨u, hu, hd⟩ := drawSprite_ok (x := x) (y := y) (n := n) (s := s) (by
      by_cases hn : n.toNat = 0
      · exact .inl (BitVec.eq_of_toNat_eq hn)
      · right; omega)
    unfold exec execDrw at h; simp only at h
    rw [hu] at h
    injection h with h; exact ⟨u, h.symm, hd⟩
  case ldBVx x =>
    simp only [ruledFault, firstOutOfRange, ite_eq_right_iff, reduceCtorEq, imp_false] at hf
    have hb : s.effAddr 2 < 4096 := by unfold State.effAddr at *; omega
    unfold exec execLdBVx at h; simp only at h
    rw [storeBcd_ok hb] at h
    injection h with h; exact ⟨hb, h.symm⟩
  case ldMiVx x =>
    simp only [ruledFault, firstOutOfRange, ite_eq_right_iff, reduceCtorEq, imp_false] at hf
    obtain ⟨m, hm, hr, hw⟩ := storeRegs_ok (n := x.toNat + 1) (s := s) (.inr (by omega))
    unfold exec execLdMiVx at h; simp only at h
    rw [hm] at h
    injection h with h; exact ⟨m, h.symm, hw, hr⟩
  case ldVxMi x =>
    simp only [ruledFault, firstOutOfRange, ite_eq_right_iff, reduceCtorEq, imp_false] at hf
    obtain ⟨w, hm, hr⟩ := loadRegs_ok (n := x.toNat + 1) (s := s) (by omega) (.inr (by omega))
    unfold exec execLdVxMi at h; simp only at h
    rw [hm] at h
    injection h with h; exact ⟨w, h.symm, by rw [← h]; exact hr⟩
  all_goals exact h

end Sys2Proof.Machine
end

