-- ==== Sys2Proof/Laws/HostOps.lean ====
section
/-! SUPPORT. The host's operations: what copying an image does. -/

namespace Sys2Proof.Machine

/-- Copying bytes changes memory only. -/
theorem State.copyIn_eq (l : List Byte) (a : Nat) (s : State) : ∃ m, s.copyIn a l = s.setMem m := by
  induction l generalizing a s with
  | nil => exact ⟨s.mem, rfl⟩
  | cons c l ih =>
    obtain ⟨m, hm⟩ := ih (a + 1) (s.setByte a c)
    exact ⟨m, by rw [State.copyIn, hm]; rfl⟩

/-- The bytes after copying: the list's in its range, and the ones before elsewhere. -/
theorem State.byteAt_copyIn (l : List Byte) (a b : Nat) (s : State) :
    (s.copyIn a l).byteAt b = if h : a ≤ b ∧ b < a + l.length then l[b - a]'(by omega) else s.byteAt b := by
  induction l generalizing a s with
  | nil => rw [dif_neg (by simp)]; rfl
  | cons c l ih =>
    rw [State.copyIn, ih]
    by_cases h1 : b = a
    · subst h1
      rw [dif_neg (by omega), dif_pos (by simp)]
      simp
    · by_cases h2 : a + 1 ≤ b ∧ b < a + 1 + l.length
      · rw [dif_pos h2, dif_pos (by simp; omega), List.getElem_cons, dif_neg (by omega)]
        congr 1
      · rw [dif_neg h2, dif_neg (by simp; omega)]
        simp [h1]

/-- Copying inside the address space keeps the canonical form. -/
theorem State.copyIn_mem_wf (l : List Byte) (a : Nat) (s : State) (h : s.mem.wf = true) (hl : a + l.length ≤ 4096) :
    (s.copyIn a l).mem.wf = true := by
  induction l generalizing a s with
  | nil => exact h
  | cons c l ih =>
    rw [List.length_cons] at hl
    exact ih (a + 1) (s.setByte a c) (Memory.wf_writeAt c h (by omega)) (by omega)

end Sys2Proof.Machine
end

