-- ==== Sys2Proof/Laws/Draws.lean ====
section
/-! SUPPORT. The random draw: no instruction but CXNN reads or changes the bytes handed over (43_register_alu.md R90), so
running one commutes with handing bytes over; and what a STEP with a draw does to them. -/

namespace Sys2Proof.Machine

/-- An outcome with the next state changed. -/
def Out.mapNext (f : State → State) : Out → Out
  | .next t => .next (f t)
  | .fault r => .fault r
  | .refused r => .refused r

/-- A rule's answer with the state changed. -/
def Result.mapOk (f : State → State) : Result → Result
  | .ok t => .ok (f t)
  | .error r => .error r

theorem memRead_setDraws (a : Nat) (s : State) (l : List Byte) : memRead (s.setDraws l) a = memRead s a := rfl

theorem memWrite_setDraws (a : Nat) (b : Byte) (s : State) (l : List Byte) :
    memWrite (s.setDraws l) a b = Result.mapOk (·.setDraws l) (memWrite s a b) := by
  unfold memWrite; split <;> rfl

/-- A loop commutes with handing bytes over if each round does. -/
theorem forUpTo_setDraws {n : Nat} {body : Nat → State → Result} {s : State} {l : List Byte}
    (h : ∀ k t, body k (t.setDraws l) = Result.mapOk (·.setDraws l) (body k t)) :
    forUpTo n body (s.setDraws l) = Result.mapOk (·.setDraws l) (forUpTo n body s) := by
  induction n with
  | zero => rfl
  | succ n ih =>
    unfold forUpTo
    rw [ih]
    cases forUpTo n body s with
    | error r => rfl
    | ok t => exact h n t

theorem loopUpTo_setDraws {n : Nat} {body : Nat → State → State} {s : State} {l : List Byte}
    (h : ∀ k t, body k (t.setDraws l) = (body k t).setDraws l) :
    loopUpTo n body (s.setDraws l) = (loopUpTo n body s).setDraws l := by
  induction n with
  | zero => rfl
  | succ n ih => unfold loopUpTo; rw [ih, h]

theorem storeReg_setDraws (k : Nat) (s : State) (l : List Byte) :
    storeReg k (s.setDraws l) = Result.mapOk (·.setDraws l) (storeReg k s) := memWrite_setDraws _ _ s l

theorem loadReg_setDraws (k : Nat) (s : State) (l : List Byte) :
    loadReg k (s.setDraws l) = Result.mapOk (·.setDraws l) (loadReg k s) := by
  unfold loadReg
  rw [memRead_setDraws, show (s.setDraws l).effAddr k = s.effAddr k from rfl]
  split <;> rfl

theorem storeBcd_setDraws (v : Byte) (s : State) (l : List Byte) :
    storeBcd v (s.setDraws l) = Result.mapOk (·.setDraws l) (storeBcd v s) := by
  by_cases h : s.effAddr 2 < 4096
  · rw [storeBcd_ok h, storeBcd_ok (s := s.setDraws l) h]; rfl
  · rw [storeBcd_error (s := s) (by omega), storeBcd_error (s := s.setDraws l) (Nat.le_of_not_lt h)]; rfl

theorem drawPixel_setDraws (row col : Nat) (bit : Bool) (s : State) (l : List Byte) :
    drawPixel row col bit (s.setDraws l) = (drawPixel row col bit s).setDraws l := by
  unfold drawPixel State.setPixel
  rw [State.pixel_setDraws]
  repeat' split
  all_goals rfl

theorem drawSprite_setDraws (x y n : Nibble) (s : State) (l : List Byte) :
    drawSprite x y n (s.setDraws l) = Result.mapOk (·.setDraws l) (drawSprite x y n s) := by
  unfold drawSprite
  rw [show (s.setDraws l).setReg vf 0 = (s.setReg vf 0).setDraws l from rfl,
    show (s.setDraws l).originColumn x = s.originColumn x from rfl, show (s.setDraws l).originRow y = s.originRow y from rfl,
    forUpTo_setDraws fun k t => ?_]
  · cases forUpTo n.toNat (drawRow (s.originColumn x) (s.originRow y)) (s.setReg vf 0) <;> rfl
  · unfold drawRow
    rw [memRead_setDraws, show (t.setDraws l).effAddr k = t.effAddr k from rfl]
    split
    · rfl
    · exact congrArg Except.ok (loopUpTo_setDraws fun c u => drawPixel_setDraws _ _ _ u l)

theorem finish_setDraws (s : State) (r : Result) (l : List Byte) :
    finish (s.setDraws l) (Result.mapOk (·.setDraws l) r) = Out.mapNext (·.setDraws l) (finish s r) := by
  cases r <;> rfl

/-- No instruction but CXNN reads or changes the bytes handed over. -/
theorem exec_setDraws {i : Instr} (h : i.kind ≠ .rnd) (s : State) (l : List Byte) :
    exec i (s.setDraws l) = Out.mapNext (·.setDraws l) (exec i s) := by
  cases i
  case rnd => exact absurd rfl h
  case ret =>
    refine Eq.trans (congrArg (finish _) ?_) (finish_setDraws s _ l)
    by_cases h0 : s.sp.val = 0
    · rw [popPc_error h0, popPc_error (s := s.setDraws l) h0]; rfl
    · have hk : s.sp.val - 1 < 16 := by have := s.sp_le; omega
      have h1 : s.sp.val - 1 + 1 = s.sp.val := by omega
      rw [popPc_ok hk h1, popPc_ok (s := s.setDraws l) hk h1]; rfl
  case call nnn =>
    refine Eq.trans (congrArg (finish _) ?_) (finish_setDraws s _ l)
    by_cases h0 : s.sp.val < 16
    · rw [pushPc_ok h0, pushPc_ok (s := s.setDraws l) h0]; rfl
    · rw [pushPc_error h0, pushPc_error (s := s.setDraws l) h0]; rfl
  case skp x =>
    refine Eq.trans (congrArg (finish _) ?_) (finish_setDraws s _ l)
    by_cases h0 : (s.reg x).toNat < 16
    · rw [skipOnKey_ok h0, skipOnKey_ok (s := s.setDraws l) h0, State.skipIf_eq, State.skipIf_eq]; rfl
    · rw [skipOnKey_error h0, skipOnKey_error (s := s.setDraws l) h0]; rfl
  case sknp x =>
    refine Eq.trans (congrArg (finish _) ?_) (finish_setDraws s _ l)
    by_cases h0 : (s.reg x).toNat < 16
    · rw [skipOnKey_ok h0, skipOnKey_ok (s := s.setDraws l) h0, State.skipIf_eq, State.skipIf_eq]; rfl
    · rw [skipOnKey_error h0, skipOnKey_error (s := s.setDraws l) h0]; rfl
  case drw x y n => exact Eq.trans (congrArg (finish _) (drawSprite_setDraws x y n s l)) (finish_setDraws s _ l)
  case ldBVx x => exact Eq.trans (congrArg (finish _) (storeBcd_setDraws (s.reg x) s l)) (finish_setDraws s _ l)
  case ldMiVx x =>
    exact Eq.trans (congrArg (finish _) (forUpTo_setDraws fun k t => storeReg_setDraws k t l)) (finish_setDraws s _ l)
  case ldVxMi x =>
    exact Eq.trans (congrArg (finish _) (forUpTo_setDraws fun k t => loadReg_setDraws k t l)) (finish_setDraws s _ l)
  case ldVxK x =>
    unfold exec execLdVxK
    simp only
    rw [show (s.setDraws l).firstKey = s.firstKey from rfl]
    split <;> rfl
  all_goals first | rfl | simp only [exec, execSeVxNn, execSneVxNn, execSeVxVy, execSneVxVy, State.skipIf_eq]; rfl

/-- A STEP with a draw leaves no byte handed over. -/
theorem stepWithDraw_draws {d : Byte} {s t : State} (h : stepWithDraw d s = .next t) : t.draws = [] := by
  unfold stepWithDraw at h
  split at h
  · injection h with h; rw [← h]; rfl
  · exact absurd h (by simp)
  · exact absurd h (by simp)

end Sys2Proof.Machine
end

