-- ==== Sys2Proof/Tests/Slice0.lean ====
section
/-! SUPPORT. The model's own tests. Expected results are those of spec/95_test_vectors.md (the row is named in each comment),
or written out from the spec's patterns; then a witness for every statement that has hypotheses. -/

namespace Sys2Proof.Tests

open Sys2Proof Sys2Proof.Machine

/-! ## Helpers -/

/-- What `f` reads in the state that an outcome leads to. -/
def look {α : Type} (o : Out) (f : State → α) : Option α :=
  match o with
  | .next t => some (f t)
  | .fault _ => none
  | .refused _ => none

/-- The launch state with an instruction word at 0x200. -/
def start (w : Nat) : State := State.reset.withFetchWord 16 w

/-- The launch state with an instruction word at `a` and PC there. -/
def startAt (a : Nat) (w : Nat) : State := (State.reset.setPc (BitVec.ofNat 16 a)).withFetchWord 16 w

/-- The pixels of one row at some columns. -/
def row (r : Nat) (cols : List Nat) (s : State) : List Bool := cols.map (s.pixel r)

/-! ## Well-formedness refuses ill-formed bundles -/

/-- NN must be Y ‖ N. -/
theorem test_wf_low_byte : (⟨.ldVxNn, 1, 2, 3, 0x24, 0x123⟩ : Bundle).wellFormed = false := by decide

/-- NNN must be X ‖ Y ‖ N. -/
theorem test_wf_address : (⟨.jp, 1, 2, 3, 0x23, 0x124⟩ : Bundle).wellFormed = false := by decide

/-- The digits a pattern fixes must be there: SE Vx, Vy with N = 1. -/
theorem test_wf_fixed_digits : (⟨.seVxVy, 1, 2, 1, 0x21, 0x121⟩ : Bundle).wellFormed = false := by decide

/-- A well-formed bundle passes (row E-8). -/
theorem test_wf_accepts : (⟨.seVxVy, 1, 2, 0, 0x20, 0x120⟩ : Bundle).wellFormed = true := by decide

/-! ## Decoding: words written out from the patterns of 30_encoding.md R49 -/

theorem test_decode_family_0 : decode 0b0000000011100000 = some .cls ∧ decode 0b0000000011101110 = some .ret := by decide

theorem test_decode_jumps : decode 0b0001101010111100 = some (.jp 0xABC) ∧ decode 0b0010101010111100 = some (.call 0xABC) ∧
    decode 0b1011101010111100 = some (.jpV0 0xABC) ∧ decode 0b1010101010111100 = some (.ldINnn 0xABC) := by decide

theorem test_decode_immediates : decode 0b0011010100011110 = some (.seVxNn 5 0x1E) ∧
    decode 0b0100010100011110 = some (.sneVxNn 5 0x1E) ∧ decode 0b0110010100011110 = some (.ldVxNn 5 0x1E) ∧
    decode 0b0111010100011110 = some (.addVxNn 5 0x1E) ∧ decode 0b1100010100011110 = some (.rnd 5 0x1E) := by decide

theorem test_decode_two_registers : decode 0b0101000100100000 = some (.seVxVy 1 2) ∧
    decode 0b1001000100100000 = some (.sneVxVy 1 2) := by decide

theorem test_decode_family_8 : decode 0b1000000100100000 = some (.ldVxVy 1 2) ∧ decode 0b1000000100100001 = some (.orVxVy 1 2) ∧
    decode 0b1000000100100010 = some (.andVxVy 1 2) ∧ decode 0b1000000100100011 = some (.xorVxVy 1 2) ∧
    decode 0b1000000100100100 = some (.addVxVy 1 2) ∧ decode 0b1000000100100101 = some (.subVxVy 1 2) ∧
    decode 0b1000000100100110 = some (.shrVx 1 2) ∧ decode 0b1000000100100111 = some (.subnVxVy 1 2) ∧
    decode 0b1000000100101110 = some (.shlVx 1 2) := by decide

theorem test_decode_draw : decode 0b1101000100101111 = some (.drw 1 2 0xF) := by decide

theorem test_decode_family_E : decode 0b1110000110011110 = some (.skp 1) ∧ decode 0b1110000110100001 = some (.sknp 1) := by
  decide

theorem test_decode_family_F : decode 0b1111000100000111 = some (.ldVxDt 1) ∧ decode 0b1111000100001010 = some (.ldVxK 1) ∧
    decode 0b1111000100010101 = some (.ldDtVx 1) ∧ decode 0b1111000100011000 = some (.ldStVx 1) ∧
    decode 0b1111000100011110 = some (.addIVx 1) ∧ decode 0b1111000100101001 = some (.ldFVx 1) ∧
    decode 0b1111000100110011 = some (.ldBVx 1) ∧ decode 0b1111000101010101 = some (.ldMiVx 1) ∧
    decode 0b1111000101100101 = some (.ldVxMi 1) := by decide

/-- Rows E-3, E-4, E-5, E-9, E-11, E-12, E-13, E-15, E-17, E-18. -/
theorem test_decode_unknown : decode 0x0000 = none ∧ decode 0x00E1 = none ∧ decode 0x01E0 = none ∧ decode 0x5121 = none ∧ decode 0x8128 = none ∧
    decode 0x812F = none ∧ decode 0x9121 = none ∧ decode 0xE19F = none ∧ decode 0xF130 = none ∧ decode 0xFFFF = none := by decide

/-- Rows E-7 and E-18: all five fields, also of an UNKNOWN word. -/
theorem test_decode_bundle : decodeBundle 0xD12F = ⟨.drw, 1, 2, 0xF, 0x2F, 0x12F⟩ ∧
    decodeBundle 0xFFFF = ⟨.unknown, 0xF, 0xF, 0xF, 0xFF, 0xFFF⟩ := by decide

/-- Bytes are rejected by name, and what follows an instruction is handed back. -/
theorem test_decode_bytes : decodeBytes [0x60, 0xAB, 0x12] = .ok (.ldVxNn 0 0xAB, [0x12]) ∧
    decodeBytes [0xFF, 0xFF] = .error (.unknownOpcode 0xFFFF) ∧ decodeBytes [0x60] = .error .truncated := by
  refine ⟨rfl, rfl, rfl⟩

/-- The table's numbering: bit 0 is the word's least significant bit. -/
theorem test_table_word : decodeTableWord 16 0x6AB1 = some (.ldVxNn 0xA 0xB1) ∧ decodeTableWord 16 0xFFFF = none := by decide

/-- Lines of the programs P3, P4 and P5. -/
theorem test_asm : asmWord 0x220E = "CALL 0x20E" ∧ asmWord 0x8014 = "ADD V0, V1" ∧ asmWord 0x0000 = "DW 0x0000" := by
  decide +kernel

/-! ## One step: fetch and unknown words -/

/-- Row U-1. -/
theorem test_unknown_word : look (step (start 0x0000)) (fun t => (t.pc, t.status)) = some (0x202, .running) ∧
    stepDiag (start 0x0000) = some ⟨0x0000, 0x200⟩ := by decide

/-- Rows U-9 and U-10: an odd address, and the last legal fetch. -/
theorem test_fetch_edges : look (step (startAt 0x201 0x60AB)) (fun t => (t.pc, t.reg 0)) = some (0x203, 0xAB) ∧
    look (step (startAt 0xFFE 0x1200)) State.pc = some 0x200 := by decide

/-- Rows U-11 and U-12. -/
theorem test_fetch_fault : look (step (State.reset.setPc 0xFFF)) State.status = some (.faulted .memOutOfRange 0x1000 (some 0xFFF)) ∧
    look (step (State.reset.setPc 0x1000)) State.status = some (.faulted .memOutOfRange 0x1000 (some 0x1000)) := by decide

/-! ## One step: display -/

/-- Row D-1. -/
theorem test_cls : look (step ((start 0x00E0).setPixel 3 5 true)) (fun t => (t.pc, t.pixel 3 5, t.redraw)) =
    some (0x202, false, true) := by decide +kernel

/-- Row D-3: rows 0 and 1 of glyph 0 at (16, 16), with the pixels beside them. -/
theorem test_drw_glyph : look (step ((((start 0xD012).setReg 0 16).setReg 1 16).setI 0x050)) (fun t =>
    (t.reg vf, row 16 [15, 16, 19, 20] t, row 17 [16, 17, 18, 19] t, t.redraw)) =
      some (0, [false, true, true, false], [true, false, false, true], true) := by decide +kernel

/-- Rows D-4, D-6 and D-7: clipping at the right edge, the origin wraps, and a collision. -/
theorem test_drw_edges :
    look (step ((((start 0xD011).setReg 0 60).setI 0x300).setByte 0x300 0xFF)) (fun t => (row 0 [59, 60, 63, 0, 1] t, t.pixel 1 0)) =
      some ([false, true, true, false, false], false) ∧
    look (step (((((start 0xD011).setReg 0 66).setReg 1 33).setI 0x300).setByte 0x300 0x80)) (row 1 [1, 2, 3]) =
      some [false, true, false] ∧
    look (step ((((start 0xD011).setPixel 0 0 true).setI 0x300).setByte 0x300 0x80)) (fun t => (t.reg vf, t.pixel 0 0)) =
      some (1, false) := by decide +kernel

/-- Rows D-12 and D-14: a row outside memory faults, clipped or not. -/
theorem test_drw_fault :
    look (step ((start 0xD013).setI 0xFFE)) State.status = some (.faulted .memOutOfRange 0x1000 (some 0x200)) ∧
    look (step (((start 0xD012).setReg 1 31).setI 0xFFF)) State.status =
      some (.faulted .memOutOfRange 0x1000 (some 0x200)) := by decide +kernel

/-! ## One step: control flow -/

/-- A state with one live slot that holds 0x206. -/
def inCall (s : State) : State := (s.setStack (s.stack.set 0 0x206)).setSp 1

/-- Row C-1. -/
theorem test_ret : look (step (inCall (startAt 0x210 0x00EE))) (fun t => (t.pc, t.sp.val, t.stack[0])) = some (0x206, 0, 0x206) := by
  decide

/-- Row C-2. -/
theorem test_ret_fault : look (step (startAt 0x210 0x00EE)) State.status = some (.faulted .stackUnderflow 0x210 (some 0x210)) := by
  decide

/-- Row C-3: the fixed point. -/
theorem test_jp : look (step (startAt 0x20A 0x120A)) State.pc = some 0x20A := by decide

/-- Rows C-5 and C-6. -/
theorem test_call : look (step (startAt 0x204 0x220E)) (fun t => (t.pc, t.sp.val, t.stack[0])) = some (0x20E, 1, 0x206) ∧
    look (step ((startAt 0x204 0x2300).setSp 15)) (fun t => (t.pc, t.sp.val, t.stack[15])) = some (0x300, 16, 0x206) := by decide

/-- Row C-7. -/
theorem test_call_fault : look (step ((startAt 0x204 0x2300).setSp 16)) State.status =
    some (.faulted .stackOverflow 0x204 (some 0x204)) := by decide

/-- Rows C-8 and C-9. -/
theorem test_se_vx_nn : look (step ((startAt 0x300 0x3342).setReg 3 0x42)) State.pc = some 0x304 ∧
    look (step ((startAt 0x300 0x3343).setReg 3 0x42)) State.pc = some 0x302 := by decide

/-- Rows C-10 and C-11. -/
theorem test_sne_vx_nn : look (step ((startAt 0x300 0x4300).setReg 3 0x42)) State.pc = some 0x304 ∧
    look (step ((startAt 0x300 0x4342).setReg 3 0x42)) State.pc = some 0x302 := by decide

/-- Row C-12, and the same with unequal registers. -/
theorem test_se_vx_vy : look (step (((start 0x5120).setReg 1 7).setReg 2 7)) State.pc = some 0x204 ∧
    look (step (((start 0x5120).setReg 1 7).setReg 2 8)) State.pc = some 0x202 := by decide

/-- Rows C-14 and C-15. -/
theorem test_sne_vx_vy : look (step (((start 0x9120).setReg 1 7).setReg 2 8)) State.pc = some 0x204 ∧
    look (step ((start 0x9330).setReg 3 9)) State.pc = some 0x202 := by decide

/-- Rows C-18 and C-19: no wrap at 0x1000. -/
theorem test_jp_v0 : look (step ((start 0xB0FF).setReg 0 0xFF)) State.pc = some 0x1FE ∧
    look (step ((start 0xBFFF).setReg 0 1)) State.pc = some 0x1000 := by decide

/-! ## One step: registers and arithmetic. `regs` reads V1 and VF. -/

/-- V1 and VF after a step. -/
def regs (s : State) : Option (Byte × Byte) := look (step s) fun t => (t.reg 1, t.reg vf)

/-- The start state with V1, V2 and VF. -/
def start3 (w : Nat) (v1 v2 f : Byte) : State := (((start w).setReg 1 v1).setReg 2 v2).setReg vf f

/-- Rows A-1 and A-2. -/
theorem test_ld_vx_nn : look (step (start 0x6010)) (fun t => (t.pc, t.reg 0)) = some (0x202, 0x10) ∧
    look (step (start 0x6FAB)) (State.reg · vf) = some 0xAB := by decide

/-- Rows A-3 and A-4. -/
theorem test_add_vx_nn : regs (start3 0x7101 0xFF 0 0x33) = some (0x00, 0x33) ∧ regs (start3 0x71FF 5 0 0) = some (4, 0) := by decide

/-- Row A-5. -/
theorem test_ld_vx_vy : regs (start3 0x8120 0 0x33 0) = some (0x33, 0) := by decide

/-- Rows A-6 and A-37. -/
theorem test_or : regs (start3 0x8121 0x0C 0x0A 0x77) = some (0x0E, 0x77) ∧ regs (start3 0x8F11 0xF0 0 0x0F) = some (0xF0, 0xFF) := by
  decide

/-- Row A-7. -/
theorem test_and : regs (start3 0x8122 0x0C 0x0A 0x77) = some (0x08, 0x77) := by decide

/-- Rows A-8 and A-9. -/
theorem test_xor : regs (start3 0x8123 0x0C 0x0A 0x77) = some (0x06, 0x77) ∧ regs (start3 0x8113 0x5A 0 0) = some (0, 0) := by decide

/-- Rows A-10 and A-12. -/
theorem test_add : regs (start3 0x8124 200 100 0) = some (0x2C, 1) ∧ regs (start3 0x8124 0x7F 0x80 1) = some (0xFF, 0) := by decide

/-- Rows A-30, A-31 and A-32: VF as operand and destination. -/
theorem test_add_vf : regs (start3 0x8F14 0x20 0 0xF0) = some (0x20, 1) ∧ regs (start3 0x81F4 0xF0 0 0x20) = some (0x10, 1) ∧
    regs (start3 0x8FF4 0 0 0x80) = some (0, 1) := by decide

/-- Rows A-14 and A-15. -/
theorem test_sub : regs (start3 0x8125 5 7 0) = some (0xFE, 0) ∧ regs (start3 0x8125 7 7 0) = some (0, 1) := by decide

/-- Rows A-27, A-28 and A-29. -/
theorem test_sub_vf : regs (start3 0x8F15 3 0 9) = some (3, 0xFE) ∧ regs (start3 0x81F5 3 0 9) = some (3, 0) ∧
    regs (start3 0x8FF5 0 0 9) = some (0, 0) := by decide

/-- Rows A-17 and A-18: Y is ignored. -/
theorem test_shr : regs (start3 0x8106 5 0 0) = some (2, 1) ∧ regs (start3 0x81F6 4 0 9) = some (2, 0) := by decide

/-- Row A-33. -/
theorem test_shr_vf : regs (start3 0x8F06 0 0 3) = some (0, 0) := by decide

/-- Rows A-20 and A-21. -/
theorem test_subn : regs (start3 0x8127 5 7 0) = some (2, 1) ∧ regs (start3 0x8127 1 0 0) = some (0xFF, 0) := by decide

/-- Rows A-35 and A-36. -/
theorem test_subn_vf : regs (start3 0x8F17 5 0 2) = some (5, 4) ∧ regs (start3 0x81F7 3 0 9) = some (0xFE, 1) := by decide

/-- Rows A-22 and A-23. -/
theorem test_shl : regs (start3 0x810E 0x81 0 0) = some (2, 1) ∧ regs (start3 0x810E 0x7F 0 0) = some (0xFE, 0) := by decide

/-- Row A-34. -/
theorem test_shl_vf : regs (start3 0x8F0E 0 0 0x80) = some (0, 2) := by decide

/-- Rows A-24 and A-26. -/
theorem test_rnd : look (stepWithDraw 0xB6 (start 0xC30F)) (State.reg · 3) = some 0x06 ∧
    look (stepWithDraw 0x5C (start 0xC3FF)) (State.reg · 3) = some 0x5C := by decide

/-- Row A-25: masked with 0, whatever the draw, the free one too. -/
theorem test_rnd_zero : look (step (start 0xC300)) (State.reg · 3) = some 0 := by
  simp [start, State.withFetchWord, State.storeAtPc, tableWord, hiByte, loByte]
  rw [show step _ = exec (.rnd 3 0) _ from rfl]
  simp [exec, execRnd, look]

/-! ## One step: index register and memory -/

/-- Row I-1. -/
theorem test_ld_i : look (step (start 0xA050)) (fun t => (t.pc, t.i)) = some (0x202, 0x050) := by decide

/-- Rows I-2 and I-3. -/
theorem test_add_i : look (step (((start 0xF21E).setI 0xFFF).setReg 2 1)) State.i = some 0x1000 ∧
    look (step (((start 0xF21E).setI 0xFFFF).setReg 2 2)) State.i = some 0x0001 := by decide

/-- Rows I-5 and I-7: not masked. -/
theorem test_ld_f : look (step ((start 0xF429).setReg 4 0xA)) State.i = some 0x082 ∧
    look (step ((start 0xF429).setReg 4 0xFF)) State.i = some 0x54B := by decide

/-- Row I-8. -/
theorem test_ld_b : look (step (((start 0xF033).setReg 0 255).setI 0x300)) (fun t => (t.byteAt 0x300, t.byteAt 0x301, t.byteAt 0x302, t.i)) =
    some (2, 5, 5, 0x300) := by decide

/-- Row I-11. -/
theorem test_ld_b_fault : look (step (((start 0xF033).setReg 0 123).setI 0xFFE)) State.status =
    some (.faulted .memOutOfRange 0x1000 (some 0x200)) := by decide

/-- Rows I-13 and I-19: the last register only, and the glyph area is writable. -/
theorem test_ld_mi : look (step ((((start 0xF055).setReg 0 0xAA).setReg 1 0xBB).setI 0x300)) (fun t => (t.byteAt 0x300, t.byteAt 0x301, t.i)) =
      some (0xAA, 0, 0x300) ∧
    look (step (((start 0xF055).setReg 0 0x99).setI 0x050)) (State.byteAt · 0x050) = some 0x99 := by decide

/-- Row I-14. -/
theorem test_ld_mi_fault : look (step ((start 0xFF55).setI 0xFF1)) State.status =
    some (.faulted .memOutOfRange 0x1000 (some 0x200)) := by decide +kernel

/-- Rows I-15 and I-17. -/
theorem test_ld_vx_mi :
    look (step (((((start 0xF265).setI 0x300).setByte 0x300 2).setByte 0x301 5).setByte 0x302 6)) (fun t => (t.reg 0, t.reg 1, t.reg 2, t.i)) =
      some (2, 5, 6, 0x300) ∧
    look (step ((start 0xF065).setI 0x050)) (State.reg · 0) = some 0xF0 := by decide +kernel

/-- Row I-18. -/
theorem test_ld_vx_mi_fault : look (step ((start 0xF065).setI 0x1000)) State.status =
    some (.faulted .memOutOfRange 0x1000 (some 0x200)) := by decide

/-! ## One step: keypad and timers -/

/-- The state with one key down. -/
def press (k : Fin 16) (s : State) : State := s.setKeys (s.key.set k.val true)

/-- Rows K-1 and K-2. -/
theorem test_skp : look (step (press 5 ((start 0xE29E).setReg 2 5))) State.pc = some 0x204 ∧
    look (step ((start 0xE29E).setReg 2 5)) State.pc = some 0x202 := by decide

/-- Row K-5. -/
theorem test_skp_fault : look (step ((start 0xE29E).setReg 2 16)) State.status =
    some (.faulted .keyIndexOutOfRange 16 (some 0x200)) := by decide

/-- Rows K-3 and K-4. -/
theorem test_sknp : look (step ((start 0xE2A1).setReg 2 5)) State.pc = some 0x204 ∧
    look (step (press 5 ((start 0xE2A1).setReg 2 5))) State.pc = some 0x202 := by decide

/-- Row K-6. -/
theorem test_sknp_fault : look (step ((start 0xE2A1).setReg 2 0xFF)) State.status =
    some (.faulted .keyIndexOutOfRange 0xFF (some 0x200)) := by decide

/-- Row K-7. -/
theorem test_ld_vx_dt : look (step ((start 0xF307).setDt 0x3C)) (State.reg · 3) = some 0x3C := by decide

/-- Row K-8. -/
theorem test_ld_vx_k_waits : look (step (start 0xF30A)) (fun t => (t.pc, t.reg 3)) = some (0x200, 0) := by decide

/-- Row K-9. -/
theorem test_ld_vx_k : look (step (press 7 (press 10 (start 0xF30A)))) (fun t => (t.pc, t.reg 3)) = some (0x202, 7) := by decide

/-- Row K-12. -/
theorem test_ld_dt : look (step ((start 0xF115).setReg 1 0x3C)) (fun t => (t.pc, t.dt)) = some (0x202, 0x3C) := by decide

/-- Row K-13. -/
theorem test_ld_st : look (step ((start 0xF118).setReg 1 2)) (fun t => (t.st, t.soundActive)) = some (2, true) := by decide

/-! ## The host's operations -/

/-- Rows T-2, T-3 and T-4. -/
theorem test_tick : look (tick State.reset) (fun t => (t.dt, t.st)) = some (0, 0) ∧
    look (tick ((State.reset.setDt 5).setSt 1)) (fun t => (t.dt, t.st, t.soundActive)) = some (4, 0, false) ∧
    look (tick (State.reset.setSt 0xFF)) (fun t => (t.dt, t.st)) = some (0, 0xFE) := by decide

/-- A Faulted state (rows T-5, H-6, H-7). -/
def broken : State := (State.reset.setDt 3).setStatus (.faulted .stackUnderflow 0x210 (some 0x210))

/-- Rows T-5 and H-6: no move. -/
theorem test_faulted : tick broken = .fault (.coreFaulted .stackUnderflow 0x210 (some 0x210)) ∧
    step broken = .fault (.coreFaulted .stackUnderflow 0x210 (some 0x210)) := ⟨rfl, rfl⟩

/-- Row H-7. -/
theorem test_reset : resetOp broken = State.reset := rfl

/-- Rows H-2 and H-3 (the short image is P7's). -/
theorem test_load : look (load [0x22, 0x00] State.reset) (fun t => (t.byteAt 0x200, t.byteAt 0x201)) = some (0x22, 0x00) ∧
    look (load [] State.reset) (fun t => t.mem) = some [] := by decide

/-- P7's launch from a Faulted session: Running, the image in place, the counter of free values kept. -/
theorem test_launch : (match launch [0x22, 0x00] ⟨broken.setFreeIndex 7, false⟩ with
    | .next u => some (u.state.byteAt 0x200, u.state.pc, u.state.status, u.state.freeIndex)
    | _ => none) = some (0x22, 0x200, .running, 7) := by decide

/-- Rows H-4 and H-5. -/
theorem test_redraw_and_key : look (clearRedraw (State.reset.setRedraw true)) State.redraw = some false ∧
    look (setKey 0xA true State.reset) (fun t => (t.key[10], t.key[9])) = some (true, false) := by decide

/-! ## Witnesses: the hypotheses of every statement that has some are met -/

theorem witness_DecodedWordIsItsEncoding : decode 0xD12F = some (.drw 1 2 0xF) := by decide

theorem witness_CanonicalMemories : Memory.wf [(0x300, 5)] = true ∧ ∀ a, Memory.readAt [(0x300, 5)] a = Memory.readAt [(0x300, 5)] a :=
  ⟨by decide, fun _ => rfl⟩

theorem witness_StepRunsTheDecodedInstruction : (start 0x6010).AtInstr (.ldVxNn 0 0x10) :=
  ⟨by decide, by decide, by decide⟩

/-- Every clause, at the ends of its range. -/
theorem witness_Fetch : (State.reset.setPc 0xFFE).pc.toNat < 0xFFF ∧
    ((State.reset.setPc 0xFFF).status = .running ∧ (State.reset.setPc 0xFFF).pc.toNat = 0xFFF) ∧
    ((State.reset.setPc 0x1000).status = .running ∧ 0x1000 ≤ (State.reset.setPc 0x1000).pc.toNat) ∧
    0x1000 ≤ (State.reset.setPc 0xFFFF).pc.toNat := by decide

theorem witness_UnknownWordOnlyAdvances : (startAt 0xFFE 0xFFFF).status = .running ∧ (startAt 0xFFE 0xFFFF).pc.toNat + 1 < 4096 ∧
    decode (startAt 0xFFE 0xFFFF).wordAtPc = none := by decide

theorem witness_Running : State.reset.status = .running := rfl

/-- An instruction that no rule faults, with the state it leads to: the hypotheses of the statements on who writes what. -/
theorem witness_Writers : ruledFault (.ldDtVx 3) State.reset = none ∧ ∃ t, exec (.ldDtVx 3) State.reset = .next t :=
  ⟨rfl, _, rfl⟩

/-- The same for the three writers of I, the two of the stack, and those of the screen, memory and VF. -/
theorem witness_Writers_all : ∀ i ∈ ([.ldINnn 0xFFF, .addIVx 0, .ldFVx 0xF, .call 0x300, .ldStVx 0, .cls, .drw 0 1 0xF, .ldBVx 2,
    .ldMiVx 0xF, .ldVxMi vf, .ldVxNn vf 7, .ldVxVy vf 1, .ldVxDt vf] : List Instr), ruledFault i State.reset = none := by decide

theorem witness_EveryStepKeepsTheInvariant : (start 0x6010).Inv ∧ ∃ t, step (start 0x6010) = .next t := by
  refine ⟨⟨by decide, fun _ => ⟨by decide, fun k _ hk => ?_⟩⟩, _, rfl⟩
  exact absurd hk (Nat.not_lt_zero k)

theorem witness_EveryHostOperation : Session.fresh.state.Inv ∧ ∃ u, Session.fresh.apply .tick = .next u := by
  refine ⟨⟨rfl, fun _ => ⟨by decide, fun k _ hk => ?_⟩⟩, _, rfl⟩
  exact absurd hk (Nat.not_lt_zero k)

theorem witness_Tick : State.reset.status = .running ∧ broken.status ≠ .running := by decide

theorem witness_Redraw : ruledFault (.drw 0 1 0) (State.reset.setI 0xFFFF) = none ∧
    ruledFault (.drw 0 1 1) (State.reset.setI 0xFFF) = none := by decide

/-- The longest image, and the shortest (from any session, a Faulted one too). -/
theorem witness_Launch : (List.replicate 3584 (0 : Byte)).length ≤ 3584 ∧ ([] : List Byte).length ≤ 3584 :=
  ⟨le_of_eq List.length_replicate, Nat.zero_le _⟩

theorem witness_Oversized : State.reset.status = .running ∧ 3584 < (List.replicate 3585 (0 : Byte)).length :=
  ⟨rfl, lt_of_lt_of_eq (Nat.lt_succ_self 3584) List.length_replicate.symm⟩

theorem witness_Faulted : (⟨broken, false⟩ : Session).state.status = .faulted .stackUnderflow 0x210 (some 0x210) ∧
    HostOp.tick ≠ .reset := by decide

theorem witness_LoadIsRefused : HostOp.tick ≠ .reset ∧
    ∃ u, Session.fresh.apply .tick = .next u ∧ u.state.status = .running := ⟨by decide, _, rfl, rfl⟩

/-- No rows at all, and rows up to the last byte of memory. -/
theorem witness_Draw : (0 : Nibble) = 0 ∧ (State.reset.setI 0xFF1).effAddr (0xF : Nibble).toNat ≤ 4096 := by decide

/-- Row D-7's state meets the first clause of the flag's statement, the reset state the second. -/
theorem witness_DrawReportsCollisions :
    (spritePixel (((State.reset.setPixel 0 0 true).setI 0x300).setByte 0x300 0x80) 0 1 1 0 0 = true ∧
      (((State.reset.setPixel 0 0 true).setI 0x300).setByte 0x300 0x80).pixel 0 0 = true) ∧
    ∀ row col, row < 32 → col < 64 → spritePixel State.reset 0 1 1 row col = true → State.reset.pixel row col = false := by
  refine ⟨by decide, fun row col _ _ _ => ?_⟩
  unfold State.pixel
  split <;> simp [State.reset]

theorem witness_DrawAfterClear : State.reset.effAddr (5 : Nibble).toNat ≤ 4096 ∧ ∃ t, exec .cls State.reset = .next t :=
  ⟨by decide, _, rfl⟩

theorem witness_DrawingTwice : (0 : Nibble) ≠ vf ∧ (1 : Nibble) ≠ vf ∧ State.reset.effAddr (5 : Nibble).toNat ≤ 4096 ∧
    ∃ t, exec (.drw 0 1 5) State.reset = .next t := ⟨by decide, by decide, by decide, _, rfl⟩

/-- One live slot, and all sixteen. -/
theorem witness_Return : (State.reset.setSp 1).sp ≠ 0 ∧ (State.reset.setSp 16).sp ≠ 0 := by decide

/-- No live slot, and all but one. -/
theorem witness_Call : State.reset.sp.val < 16 ∧ (State.reset.setSp 15).sp.val < 16 := by decide

theorem witness_ReturnResumes : State.reset.sp.val < 16 ∧ ∃ t, exec (.call 0x300) State.reset = .next t ∧
    (t.setPc 0x210).stack = t.stack ∧ (t.setPc 0x210).sp = t.sp := ⟨by decide, _, rfl, rfl, rfl⟩

theorem witness_JumpToItself : (start 0x1200).AtInstr (.jp 0x200) ∧ (0x200 : Addr).toNat = (start 0x1200).pc.toNat :=
  ⟨⟨by decide, by decide, by decide⟩, by decide⟩

/-- The register operands of the arithmetic statements: neither is F, and the two differ. -/
theorem witness_Registers : (0 : Nibble) ≠ vf ∧ (0xE : Nibble) ≠ vf ∧ (0 : Nibble) ≠ 0xE := by decide

/-- A draw handed over; a session at a CXNN, and one at another instruction; a STEP that moves. -/
theorem witness_Random : (State.reset.setDraws [0xB6]).draws = 0xB6 :: [] ∧ (start 0xC30F).AtInstr (.rnd 3 0x0F) ∧
    (∀ x nn, ¬ (start 0x6010).AtInstr (.rnd x nn)) ∧ ∃ u, Session.fresh.apply (.step 0xB6) = .next u := by
  refine ⟨rfl, ⟨by decide, by decide, by decide⟩, fun x nn h => ?_, _, rfl⟩
  exact absurd (h.2.2.symm.trans (show decode (start 0x6010).wordAtPc = some (.ldVxNn 0 0x10) by decide)) (by simp)

/-- Both clauses of FX33's statement, at the end of memory. -/
theorem witness_Bcd : (State.reset.setI 0xFFD).effAddr 2 < 4096 ∧ 4096 ≤ (State.reset.setI 0xFFE).effAddr 2 := by decide

/-- Both clauses of FX55's and FX65's statements, at the end of memory. -/
theorem witness_StoreLoad : (State.reset.setI 0xFF0).effAddr (0xF : Nibble).toNat < 4096 ∧
    4096 ≤ (State.reset.setI 0xFF1).effAddr (0xF : Nibble).toNat := by decide

theorem witness_StoreThenLoad : (State.reset.setI 0x300).effAddr (2 : Nibble).toNat < 4096 ∧
    ∃ t, exec (.ldMiVx 2) (State.reset.setI 0x300) = .next t ∧ (t.setReg 0 9).i = t.i ∧
      ∀ k, k ≤ (2 : Nibble).toNat → (t.setReg 0 9).byteAt ((State.reset.setI 0x300).effAddr k) =
        t.byteAt ((State.reset.setI 0x300).effAddr k) := ⟨by decide, _, rfl, rfl, fun _ _ => rfl⟩

theorem witness_StoredBytes : (State.reset.setI 0xFFE).effAddr (1 : Nibble).toNat < 4096 ∧ 0 < (1 : Nibble).toNat ∧
    ∃ t, exec (.ldMiVx 1) (State.reset.setI 0xFFE) = .next t := ⟨by decide, by decide, _, rfl⟩

/-- The lowest and the highest key index. -/
theorem witness_KeySkips : (State.reset.reg 2).toNat < 16 ∧ ((State.reset.setReg 2 15).reg 2).toNat < 16 := by decide

/-- A key down with none below it, at both ends; and no key down. -/
theorem witness_Wait : ((press 15 State.reset).key[15] = true ∧
      ∀ j (hj : j < 15), ((press 15 State.reset).key[j]'(Nat.lt_trans hj (by decide))) = false) ∧
    (press 0 State.reset).key[0] = true ∧ ∀ k (h : k < 16), State.reset.key[k] = false := by
  refine ⟨⟨by decide, by decide⟩, by decide, by decide⟩

theorem witness_WaitingStep : (start 0xF30A).AtInstr (.ldVxK 3) ∧ ∀ k (h : k < 16), (start 0xF30A).key[k] = false :=
  ⟨⟨by decide, by decide, by decide⟩, by decide⟩

end Sys2Proof.Tests
end

section
/-! The control-flow statements (42_control_flow.md). A jump or a register skip is one write of PC; the frame of that write and
the value written are two separate facts. -/

namespace Sys2Proof.Machine

/-! ## Addresses -/

@[simp] theorem zextAddr_toNat (nnn : Addr) : (zextAddr nnn).toNat = nnn.toNat :=
  BitVec.toNat_setWidth_of_le (by decide)

@[simp] theorem zextByte_toNat (b : Byte) : (zextByte b).toNat = b.toNat :=
  BitVec.toNat_setWidth_of_le (by decide)

/-- A 12-bit address and a byte add up to at most 0x10FE, so the 16-bit sum does not wrap (R76). -/
theorem zextAddr_add_zextByte_toNat (nnn : Addr) (b : Byte) :
    (zextAddr nnn + zextByte b).toNat = nnn.toNat + b.toNat := by
  have hn := nnn.isLt
  have hb := b.isLt
  rw [BitVec.toNat_add, zextAddr_toNat, zextByte_toNat]
  omega

/-! ## Instructions that write PC alone -/

theorem frame_setPc (s : State) (w : Word) : Frame { pc := true } s (s.setPc w) := by
  simp [Frame]

/-- An instruction that only writes PC completes, with the value it wrote and nothing else changed. -/
theorem completes_of_setPc {i : Instr} {s : State} {w : Word} {post : Word → Prop} (he : exec i s = .next (s.setPc w))
    (hw : post w) : Completes i s fun t => post t.pc ∧ Frame { pc := true } s t :=
  ⟨s.setPc w, he, hw, frame_setPc s w⟩

/-- An instruction that is a conditional skip completes with PC as the condition says. -/
theorem completes_of_skipIf {i : Instr} {s : State} {c : Bool} {p : Prop} [Decidable p]
    (he : exec i s = .next (s.skipIf c)) (hc : c = true ↔ p) :
    Completes i s fun t => t.pc = (if p then s.pc + 2 else s.pc) ∧ Frame { pc := true } s t := by
  rw [State.skipIf_eq] at he
  exact completes_of_setPc (post := (· = _)) he (if_congr hc rfl rfl)

/-! ## What the jumps and skips execute -/

theorem exec_jp (nnn : Addr) (s : State) : exec (.jp nnn) s = .next (s.setPc (zextAddr nnn)) := rfl

theorem exec_jpV0 (nnn : Addr) (s : State) :
    exec (.jpV0 nnn) s = .next (s.setPc (zextAddr nnn + zextByte (s.reg 0))) := rfl

theorem exec_seVxNn (x : Nibble) (nn : Byte) (s : State) :
    exec (.seVxNn x nn) s = .next (s.skipIf (s.reg x == nn)) := rfl

theorem exec_sneVxNn (x : Nibble) (nn : Byte) (s : State) :
    exec (.sneVxNn x nn) s = .next (s.skipIf (s.reg x != nn)) := rfl

theorem exec_seVxVy (x y : Nibble) (s : State) :
    exec (.seVxVy x y) s = .next (s.skipIf (s.reg x == s.reg y)) := rfl

theorem exec_sneVxVy (x y : Nibble) (s : State) :
    exec (.sneVxVy x y) s = .next (s.skipIf (s.reg x != s.reg y)) := rfl

/-! ## The statements -/

/-- Settles O35: the written PC is NNN zero-extended. -/
theorem jumpSetsPc : Obligations.JumpSetsPc := fun nnn s =>
  completes_of_setPc (post := (·.toNat = nnn.toNat)) (exec_jp nnn s) (zextAddr_toNat nnn)

/-- Settles O36: the written PC is a 16-bit sum that does not wrap. -/
theorem jumpWithOffsetAddsV0 : Obligations.JumpWithOffsetAddsV0 := fun nnn s =>
  completes_of_setPc (post := (·.toNat = nnn.toNat + (s.reg 0).toNat)) (exec_jpV0 nnn s)
    (zextAddr_add_zextByte_toNat nnn (s.reg 0))

/-- Settles O37: each of the four is a conditional skip, on the equality or the inequality of two bytes. -/
theorem skipsFollowTheirConditions : Obligations.SkipsFollowTheirConditions := fun x y nn s =>
  ⟨completes_of_skipIf (exec_seVxNn x nn s) beq_iff_eq,
   completes_of_skipIf (exec_sneVxNn x nn s) bne_iff_ne,
   completes_of_skipIf (exec_seVxVy x y s) beq_iff_eq,
   completes_of_skipIf (exec_sneVxVy x y s) bne_iff_ne⟩

end Sys2Proof.Machine
end

section
/-! The register statements (43_register_alu.md). A load writes one register: the byte written and the frame of that write are
two separate facts, the same for every instruction whose whole effect is one register write. -/

namespace Sys2Proof.Machine

/-! ## Instructions that write one register alone -/

theorem frame_setReg (s : State) (x : Nibble) (b : Byte) : Frame { regs := fun r => r == x } s (s.setReg x b) := by
  have hregs : ∀ r, (r == x) = false → (s.setReg x b).reg r = s.reg r := fun r hr =>
    State.reg_setReg_of_ne s x r b (beq_eq_false_iff_ne.mp hr)
  exact ⟨hregs, by simp⟩

/-- An instruction that only writes V[X] completes, with the byte it wrote and nothing else changed. -/
theorem completes_of_setReg {i : Instr} {s : State} {x : Nibble} {b : Byte} {post : Byte → Prop}
    (he : exec i s = .next (s.setReg x b)) (hb : post b) :
    Completes i s fun t => post (t.reg x) ∧ Frame { regs := fun r => r == x } s t :=
  ⟨s.setReg x b, he, (State.reg_setReg_self s x b).symm ▸ hb, frame_setReg s x b⟩

/-! ## What the register loads execute -/

theorem exec_ldVxNn (x : Nibble) (nn : Byte) (s : State) : exec (.ldVxNn x nn) s = .next (s.setReg x nn) := rfl

theorem exec_ldVxVy (x y : Nibble) (s : State) : exec (.ldVxVy x y) s = .next (s.setReg x (s.reg y)) := rfl

/-! ## The statements -/

/-- Settles O40: each of the two is one register write, of NN or of the value V[Y] had. -/
theorem loadsSetOneRegister : Obligations.LoadsSetOneRegister := fun x y nn s =>
  ⟨completes_of_setReg (post := (· = nn)) (exec_ldVxNn x nn s) rfl,
   completes_of_setReg (post := (· = s.reg y)) (exec_ldVxVy x y s) rfl⟩

end Sys2Proof.Machine
end

section
/-! The statements on the index register and on memory through it (44_index_memory.md). A load of I is one write of I. The
three instructions that access memory complete, with the effect their shared operation has (Laws/Ops.lean), or fault in one
and the same way, with the first address outside memory. -/

namespace Sys2Proof.Machine

/-! ## Frames of the writes -/

theorem frame_setI (s : State) (w : Word) : Frame { i := true } s (s.setI w) := by
  simp [Frame]

theorem frame_setMem {c : Nat → Bool} {s : State} {m : Memory} (h : ∀ a, c a = false → m.readAt a = s.byteAt a) :
    Frame { mem := c } s (s.setMem m) :=
  ⟨fun _ _ => rfl, h, by simp⟩

/-- A byte write at an address that may change keeps a frame. -/
theorem frame_setByte {c : Nat → Bool} {s t : State} {a : Nat} (b : Byte) (h : Frame { mem := c } s t) (ha : c a = true) :
    Frame { mem := c } s (t.setByte a b) := by
  obtain ⟨hregs, hmem, hrest⟩ := h
  refine ⟨hregs, fun a' ha' => ?_, hrest⟩
  have hne : a' ≠ a := fun he => by simp [he, ha] at ha'
  rw [State.byteAt_setByte, if_neg hne, hmem a' ha']

theorem frame_setV {c : Nibble → Bool} {s : State} {w : Vector Byte Config.numV}
    (h : ∀ r, c r = false → ({ s with v := w } : State).reg r = s.reg r) : Frame { regs := c } s { s with v := w } :=
  ⟨h, fun _ _ => rfl, by simp⟩

/-! ## Instructions that write I alone -/

/-- An instruction that only writes I completes, with the value it wrote and nothing else changed. -/
theorem completes_of_setI {i : Instr} {s : State} {w : Word} {post : Word → Prop} (he : exec i s = .next (s.setI w))
    (hw : post w) : Completes i s fun t => post t.i ∧ Frame { i := true } s t :=
  ⟨s.setI w, he, hw, frame_setI s w⟩

/-- A glyph's address is at most 0x050 + 5·255, so the 16-bit arithmetic does not wrap (R94). -/
theorem glyphAddr_toNat (v : Byte) : (glyphAddr v).toNat = 0x050 + 5 * v.toNat := by
  have hv := v.isLt
  have hg : glyphAddr v = 0x050#16 + 5#16 * zextByte v := rfl
  rw [hg, BitVec.toNat_add, BitVec.toNat_mul, zextByte_toNat, BitVec.toNat_ofNat, BitVec.toNat_ofNat]
  omega

/-! ## The digits of a byte -/

theorem bcdHundreds_toNat (v : Byte) : (bcdHundreds v).toNat = v.toNat / 100 := by
  have hv := v.isLt
  unfold bcdHundreds
  rw [BitVec.toNat_ofNat]
  omega

theorem bcdTens_toNat (v : Byte) : (bcdTens v).toNat = v.toNat / 10 % 10 := by
  unfold bcdTens
  rw [BitVec.toNat_ofNat]
  omega

theorem bcdOnes_toNat (v : Byte) : (bcdOnes v).toNat = v.toNat % 10 := by
  unfold bcdOnes
  rw [BitVec.toNat_ofNat]
  omega

/-! ## Addresses from I on -/

theorem effAddr_le_effAddr {s : State} {j k : Nat} : s.effAddr j ≤ s.effAddr k ↔ j ≤ k := Nat.add_le_add_iff_left

theorem effAddr_lt_effAddr {s : State} {j k : Nat} : s.effAddr j < s.effAddr k ↔ j < k := Nat.add_lt_add_iff_left

theorem effAddr_inj {s : State} {j k : Nat} : s.effAddr j = s.effAddr k ↔ j = k := Nat.add_left_cancel_iff

theorem effAddr_sub_effAddr_zero (s : State) (k : Nat) : s.effAddr k - s.effAddr 0 = k :=
  Nat.add_sub_add_left s.i.toNat k 0

/-- If the last of the n + 1 addresses from I on is outside memory, the first one outside is the greater of I and 4096. -/
theorem firstOutOfRange_of_le {s : State} {n : Nat} (h : 4096 ≤ s.effAddr n) :
    firstOutOfRange s (n + 1) = some ⟨.memOutOfRange, max s.i.toNat 4096⟩ :=
  if_pos ⟨n.succ_pos, Nat.lt_succ_of_le h⟩

/-- An instruction that accesses the n + 1 addresses from I on faults if the last of them is outside memory. -/
theorem completes_of_outOfRange {i : Instr} {s : State} {n : Nat} (hi : ruledFault i s = firstOutOfRange s (n + 1))
    (h : 4096 ≤ s.effAddr n) :
    Completes i s fun t => t.status = .faulted .memOutOfRange (max s.i.toNat 4096) (some (s.pc - 2)) :=
  ⟨_, exec_of_ruled (hi.trans (firstOutOfRange_of_le h)), takeFault_status _ _ _⟩

/-! ## What the instructions execute -/

theorem exec_ldINnn (nnn : Addr) (s : State) : exec (.ldINnn nnn) s = .next (s.setI (zextAddr nnn)) := rfl

theorem exec_ldFVx (x : Nibble) (s : State) : exec (.ldFVx x) s = .next (s.setI (glyphAddr (s.reg x))) := rfl

theorem exec_ldBVx (x : Nibble) (s : State) : exec (.ldBVx x) s = finish s (storeBcd (s.reg x) s) := rfl

theorem exec_ldMiVx (x : Nibble) (s : State) :
    exec (.ldMiVx x) s = finish s (forUpTo (x.toNat + 1) storeReg s) := rfl

theorem exec_ldVxMi (x : Nibble) (s : State) :
    exec (.ldVxMi x) s = finish s (forUpTo (x.toNat + 1) loadReg s) := rfl

/-! ## The statements -/

/-- Settles O49: each of the two is one write of I, of a 16-bit value that does not wrap. -/
theorem indexLoadsSetI : Obligations.IndexLoadsSetI := fun nnn x s =>
  ⟨completes_of_setI (post := (·.toNat = nnn.toNat)) (exec_ldINnn nnn s) (zextAddr_toNat nnn),
   completes_of_setI (post := (·.toNat = 0x050 + 5 * (s.reg x).toNat)) (exec_ldFVx x s) (glyphAddr_toNat (s.reg x))⟩

/-- FX33 inside memory (R95): three byte writes, at three different addresses. -/
theorem ldBVx_completes {x : Nibble} {s : State} (h : s.effAddr 2 < 4096) :
    Completes (.ldBVx x) s fun t =>
      (t.byteAt (s.effAddr 0)).toNat = (s.reg x).toNat / 100 ∧
      (t.byteAt (s.effAddr 1)).toNat = (s.reg x).toNat / 10 % 10 ∧
      (t.byteAt (s.effAddr 2)).toNat = (s.reg x).toNat % 10 ∧
      Frame { mem := fun a => decide (s.effAddr 0 ≤ a ∧ a < s.effAddr 3) } s t := by
  have hin : ∀ k, k < 3 → decide (s.effAddr 0 ≤ s.effAddr k ∧ s.effAddr k < s.effAddr 3) = true := fun k hk =>
    decide_eq_true ⟨effAddr_le_effAddr.mpr k.zero_le, effAddr_lt_effAddr.mpr hk⟩
  refine ⟨_, by rw [exec_ldBVx, storeBcd_ok h, finish_ok], ?_, ?_, ?_, ?_⟩
  · simp [effAddr_inj, bcdHundreds_toNat]
  · simp [effAddr_inj, bcdTens_toNat]
  · simp [bcdOnes_toNat]
  · have hs : Frame { mem := fun a => decide (s.effAddr 0 ≤ a ∧ a < s.effAddr 3) } s s := by simp [Frame]
    exact frame_setByte _ (frame_setByte _ (frame_setByte _ hs (hin 0 (by decide))) (hin 1 (by decide))) (hin 2 (by decide))

/-- Settles O51: inside memory by its three byte writes, else by the ruled fault. -/
theorem bcdStoresThreeDigits : Obligations.BcdStoresThreeDigits := fun _ _ =>
  ⟨ldBVx_completes, completes_of_outOfRange rfl⟩

/-- FX55 inside memory (R96). -/
theorem ldMiVx_completes {x : Nibble} {s : State} (h : s.effAddr x.toNat < 4096) :
    Completes (.ldMiVx x) s fun t =>
      (∀ k, k ≤ x.toNat → t.byteAt (s.effAddr k) = s.reg (regIndex k)) ∧
      Frame { mem := fun a => decide (s.effAddr 0 ≤ a ∧ a < s.effAddr (x.toNat + 1)) } s t := by
  obtain ⟨m, hm, hread, -⟩ := storeRegs_ok (n := x.toNat + 1) (s := s) (.inr h)
  refine ⟨s.setMem m, by rw [exec_ldMiVx, hm, finish_ok], fun k hk => ?_, frame_setMem fun a ha => ?_⟩
  · have hin : s.effAddr 0 ≤ s.effAddr k ∧ s.effAddr k < s.effAddr (x.toNat + 1) :=
      ⟨effAddr_le_effAddr.mpr k.zero_le, effAddr_lt_effAddr.mpr (Nat.lt_succ_of_le hk)⟩
    exact (hread _).trans (by rw [if_pos hin, effAddr_sub_effAddr_zero])
  · rw [hread, if_neg (of_decide_eq_false ha)]

/-- Settles O52: inside memory by the bytes its loop stores, else by the ruled fault. -/
theorem storeCopiesRegistersToMemory : Obligations.StoreCopiesRegistersToMemory := fun _ _ =>
  ⟨ldMiVx_completes, completes_of_outOfRange rfl⟩

/-- FX65 inside memory (R97). -/
theorem ldVxMi_completes {x : Nibble} {s : State} (h : s.effAddr x.toNat < 4096) :
    Completes (.ldVxMi x) s fun t =>
      (∀ k, k ≤ x.toNat → t.reg (regIndex k) = s.byteAt (s.effAddr k)) ∧
      Frame { regs := fun r => decide (r.toNat ≤ x.toNat) } s t := by
  have hx : x.toNat < 16 := x.isLt
  obtain ⟨w, hw, hreg⟩ := loadRegs_ok (n := x.toNat + 1) (s := s) hx (.inr h)
  refine ⟨{ s with v := w }, by rw [exec_ldVxMi, hw, finish_ok], fun k hk => ?_, frame_setV fun r hr => ?_⟩
  · rw [hreg, regIndex_toNat (by omega), if_pos (by omega)]
  · have hgt : ¬ r.toNat ≤ x.toNat := of_decide_eq_false hr
    rw [hreg, if_neg (by omega)]

/-- Settles O53: inside memory by the registers its loop loads, else by the ruled fault. -/
theorem loadCopiesMemoryToRegisters : Obligations.LoadCopiesMemoryToRegisters := fun _ _ =>
  ⟨ldVxMi_completes, completes_of_outOfRange rfl⟩

end Sys2Proof.Machine
end

section
/-! The keypad and timer statements (45_keypad_timers.md). A timer transfer is one write of a register or of a timer; FX0A is one
write of V[X] or of PC, as the keypad scan answers. -/

namespace Sys2Proof.Machine

/-! ## Frames of the timer writes -/

theorem frame_setDt (s : State) (b : Byte) : Frame { dt := true } s (s.setDt b) := by
  simp [Frame]

theorem frame_setSt (s : State) (b : Byte) : Frame { st := true } s (s.setSt b) := by
  simp [Frame]

/-! ## What the instructions execute -/

theorem exec_ldVxDt (x : Nibble) (s : State) : exec (.ldVxDt x) s = .next (s.setReg x s.dt) := rfl

theorem exec_ldDtVx (x : Nibble) (s : State) : exec (.ldDtVx x) s = .next (s.setDt (s.reg x)) := rfl

theorem exec_ldStVx (x : Nibble) (s : State) : exec (.ldStVx x) s = .next (s.setSt (s.reg x)) := rfl

theorem exec_ldVxK_of_pressed {x : Nibble} {s : State} {k : Nat} (h : s.firstKey = some k) :
    exec (.ldVxK x) s = .next (s.setReg x (BitVec.ofNat 8 k)) := by
  simp only [exec, execLdVxK, h]

theorem exec_ldVxK_of_none {x : Nibble} {s : State} (h : s.firstKey = none) :
    exec (.ldVxK x) s = .next (s.setPc (s.pc - 2)) := by
  simp only [exec, execLdVxK, h]

/-! ## The statements -/

/-- Settles O59: by the two answers of the keypad scan; a key index is below 16, so it fits the byte written. -/
theorem waitTakesTheLowestPressedKey : Obligations.WaitTakesTheLowestPressedKey := by
  refine fun x s => ⟨fun k hk hdown hlow => ?_, fun hup => ?_⟩
  · have hfit : (BitVec.ofNat 8 k).toNat = k := by rw [BitVec.toNat_ofNat]; omega
    exact completes_of_setReg (post := (·.toNat = k)) (exec_ldVxK_of_pressed (State.firstKey_eq_some hk hdown hlow)) hfit
  · exact completes_of_setPc (post := (· = s.pc - 2)) (exec_ldVxK_of_none (State.firstKey_eq_none hup)) rfl

/-- Settles O57: each of the three is one write, of the byte that the source held. -/
theorem timerTransfersCopyOneByte : Obligations.TimerTransfersCopyOneByte := fun x s =>
  ⟨completes_of_setReg (post := (· = s.dt)) (exec_ldVxDt x s) rfl,
   ⟨s.setDt (s.reg x), exec_ldDtVx x s, State.setDt_dt s (s.reg x), frame_setDt s (s.reg x)⟩,
   ⟨s.setSt (s.reg x), exec_ldStVx x s, State.setSt_st s (s.reg x), frame_setSt s (s.reg x)⟩⟩

end Sys2Proof.Machine
end

section
/-! The redraw flag (60_exceptions.md R121). CLEAR_REDRAW is one write of the flag; 00E0 and DXYN end with one. -/

namespace Sys2Proof.Machine

theorem frame_setRedraw (s : State) (b : Bool) : Frame { redraw := true } s (s.setRedraw b) := by
  simp [Frame]

theorem clearRedraw_of_running {s : State} (h : s.status = .running) : clearRedraw s = .next (s.setRedraw false) :=
  whenRunning_of_running _ h

/-- What a rule answers is always a next state, the one it leaves or the one after its fault. -/
theorem finish_next (s : State) (r : Result) : ∃ t, finish s r = .next t := by
  cases r with
  | ok t => exact ⟨t, finish_ok s t⟩
  | error e => exact ⟨_, finish_error s e⟩

/-! ## What the display instructions execute -/

theorem exec_cls (s : State) : exec .cls s = .next (s.clearScreen.setRedraw true) := rfl

theorem exec_drw (x y n : Nibble) (s : State) : exec (.drw x y n) s = finish s (drawSprite x y n s) := rfl

/-- DXYN sets the flag where no fault is ruled, whatever it drew (10_state.md R21). -/
theorem drw_sets_redraw {x y n : Nibble} {s : State} (hf : ruledFault (.drw x y n) s = none) :
    Completes (.drw x y n) s fun t => t.redraw = true := by
  obtain ⟨t, ht⟩ : ∃ t, exec (.drw x y n) s = .next t := exec_drw x y n s ▸ finish_next s _
  obtain ⟨u, rfl, -⟩ := exec_effect hf ht
  exact ⟨_, ht, State.setRedraw_redraw u true⟩

/-! ## The statement -/

/-- Settles O22: each of the three writes the flag last, CLEAR_REDRAW writes nothing else. -/
theorem redrawIsSetByDrawingAndClearedByTheHost : Obligations.RedrawIsSetByDrawingAndClearedByTheHost := fun s =>
  ⟨fun hrun => ⟨s.setRedraw false, clearRedraw_of_running hrun, State.setRedraw_redraw s false, frame_setRedraw s false⟩,
   ⟨s.clearScreen.setRedraw true, exec_cls s, State.setRedraw_redraw s.clearScreen true⟩,
   fun _ _ _ => drw_sets_redraw⟩

end Sys2Proof.Machine
end

section
/-! The encoding statements (30_encoding.md R46 to R53). A word is put together again from its fields; the dispatch is inverted
once, and the round trip, the second spelling, the opcode table and the unknown words follow from that inversion. -/

namespace Sys2Proof

/-! ## Decoding an encoding -/

/-- The decoder gives the encoding of an instruction its own kind. -/
theorem kindOf_encode (i : Instr) : kindOf (encode i) = i.kind := by
  open Laws.EncodedKind in
  cases i with
  | cls => exact cls
  | ret => exact ret
  | jp nnn => exact jp nnn
  | call nnn => exact call nnn
  | seVxNn x nn => exact seVxNn x nn
  | sneVxNn x nn => exact sneVxNn x nn
  | seVxVy x y => exact seVxVy x y
  | ldVxNn x nn => exact ldVxNn x nn
  | addVxNn x nn => exact addVxNn x nn
  | ldVxVy x y => exact ldVxVy x y
  | orVxVy x y => exact orVxVy x y
  | andVxVy x y => exact andVxVy x y
  | xorVxVy x y => exact xorVxVy x y
  | addVxVy x y => exact addVxVy x y
  | subVxVy x y => exact subVxVy x y
  | shrVx x y => exact shrVx x y
  | subnVxVy x y => exact subnVxVy x y
  | shlVx x y => exact shlVx x y
  | sneVxVy x y => exact sneVxVy x y
  | ldINnn nnn => exact ldINnn nnn
  | jpV0 nnn => exact jpV0 nnn
  | rnd x nn => exact rnd x nn
  | drw x y n => exact drw x y n
  | skp x => exact skp x
  | sknp x => exact sknp x
  | ldVxDt x => exact ldVxDt x
  | ldVxK x => exact ldVxK x
  | ldDtVx x => exact ldDtVx x
  | ldStVx x => exact ldStVx x
  | addIVx x => exact addIVx x
  | ldFVx x => exact ldFVx x
  | ldBVx x => exact ldBVx x
  | ldMiVx x => exact ldMiVx x
  | ldVxMi x => exact ldVxMi x

/-- The fields of a word, read as those of a kind. -/
def bundleAs (k : Kind) (w : Word) : Bundle := ⟨k, fieldX w, fieldY w, fieldN w, fieldNN w, fieldNNN w⟩

/-- Decoding goes by the kind: the kind's constructor on the word's fields. -/
theorem decode_of_kindOf {w : Word} {k : Kind} (h : kindOf w = k) :
    decode w = (bundleAs k w).instr? := by
  rw [← h]; rfl

/-- Settles O1: the kind comes back, and each operand is the field of the word that its pattern puts it in. -/
theorem decodeOfEncodeIsTheInstruction : Obligations.DecodeOfEncodeIsTheInstruction := by
  intro i
  rw [decode_of_kindOf (kindOf_encode i)]
  cases i <;> simp [bundleAs, Bundle.instr?, Instr.kind, encode]

/-! ## A word from its fields -/

theorem fieldY_append_fieldN (w : Word) : fieldY w ++ fieldN w = fieldNN w :=
  BitVec.extractLsb'_append_extractLsb'_eq_extractLsb' rfl

theorem fieldX_append_fieldNN (w : Word) : fieldX w ++ fieldNN w = fieldNNN w :=
  BitVec.extractLsb'_append_extractLsb'_eq_extractLsb' rfl

theorem fieldX_append_fieldY_append_fieldN (w : Word) : fieldX w ++ fieldY w ++ fieldN w = fieldNNN w := by
  rw [BitVec.append_assoc, BitVec.cast_eq, fieldY_append_fieldN, fieldX_append_fieldNN]

theorem fieldF_append_fieldNNN (w : Word) : fieldF w ++ fieldNNN w = w :=
  (BitVec.extractLsb'_append_extractLsb'_eq_extractLsb' rfl).trans BitVec.extractLsb'_eq_self

/-- A word of a pattern with an address. -/
theorem word_of_address {w : Word} {f : Nibble} {nnn : Addr} (hf : fieldF w = f) (hnnn : fieldNNN w = nnn) :
    f ++ nnn = w := by
  rw [← hf, ← hnnn, fieldF_append_fieldNNN]

/-- A word of a pattern with a register and a byte. -/
theorem word_of_byte {w : Word} {f x : Nibble} {nn : Byte} (hf : fieldF w = f) (hx : fieldX w = x) (hnn : fieldNN w = nn) :
    f ++ x ++ nn = w := by
  rw [← hx, ← hnn, BitVec.append_assoc, BitVec.cast_eq, fieldX_append_fieldNN, word_of_address hf rfl]

/-- A word of a pattern with two registers and a digit. -/
theorem word_of_digits {w : Word} {f x y n : Nibble} (hf : fieldF w = f) (hx : fieldX w = x) (hy : fieldY w = y)
    (hn : fieldN w = n) : f ++ x ++ y ++ n = w := by
  rw [← hy, ← hn, BitVec.append_assoc, BitVec.cast_eq, fieldY_append_fieldN, word_of_byte hf hx rfl]

/-! ## The dispatch, inverted -/

/-- The family of a kind: the first digit of its pattern (R49). -/
def Kind.family : Kind → Nibble
  | .cls | .ret | .unknown => 0x0
  | .jp => 0x1
  | .call => 0x2
  | .seVxNn => 0x3
  | .sneVxNn => 0x4
  | .seVxVy => 0x5
  | .ldVxNn => 0x6
  | .addVxNn => 0x7
  | .ldVxVy | .orVxVy | .andVxVy | .xorVxVy | .addVxVy | .subVxVy | .shrVx | .subnVxVy | .shlVx => 0x8
  | .sneVxVy => 0x9
  | .ldINnn => 0xA
  | .jpV0 => 0xB
  | .rnd => 0xC
  | .drw => 0xD
  | .skp | .sknp => 0xE
  | .ldVxDt | .ldVxK | .ldDtVx | .ldStVx | .addIVx | .ldFVx | .ldBVx | .ldMiVx | .ldVxMi => 0xF

/-- A word has the digits that the pattern of a kind fixes (R49). -/
def FixedDigits (w : Word) (k : Kind) : Prop :=
  fieldF w = k.family ∧ (bundleAs k w).fixedDigitsAgree = true

theorem kindFamily8_digits {w : Word} {k : Kind} (hF : (fieldF w).toNat = 0x8) (hk : kindFamily8 (fieldN w) = k) :
    k = .unknown ∨ FixedDigits w k := by
  subst hk
  unfold kindFamily8
  split
  case h_10 => exact .inl rfl
  all_goals
    rename_i hn
    exact .inr ⟨BitVec.eq_of_toNat_eq hF, beq_iff_eq.mpr (BitVec.eq_of_toNat_eq hn)⟩

theorem kindFamilyE_digits {w : Word} {k : Kind} (hF : (fieldF w).toNat = 0xE) (hk : kindFamilyE (fieldNN w) = k) :
    k = .unknown ∨ FixedDigits w k := by
  subst hk
  unfold kindFamilyE
  split
  case h_3 => exact .inl rfl
  all_goals
    rename_i hnn
    exact .inr ⟨BitVec.eq_of_toNat_eq hF, beq_iff_eq.mpr (BitVec.eq_of_toNat_eq hnn)⟩

theorem kindFamilyF_digits {w : Word} {k : Kind} (hF : (fieldF w).toNat = 0xF) (hk : kindFamilyF (fieldNN w) = k) :
    k = .unknown ∨ FixedDigits w k := by
  subst hk
  unfold kindFamilyF
  split
  case h_10 => exact .inl rfl
  all_goals
    rename_i hnn
    exact .inr ⟨BitVec.eq_of_toNat_eq hF, beq_iff_eq.mpr (BitVec.eq_of_toNat_eq hnn)⟩

theorem kindFamily0_digits {w : Word} {k : Kind} (hk : kindFamily0 w = k) : k = .unknown ∨ FixedDigits w k := by
  subst hk
  unfold kindFamily0
  split
  next hw => exact .inr (hw ▸ ⟨rfl, rfl⟩)
  next =>
    split
    next hw => exact .inr (hw ▸ ⟨rfl, rfl⟩)
    next => exact .inl rfl

/-- A word that is not UNKNOWN has the family digit and the fixed digits of its kind (R49 to R52). -/
theorem kindOf_dispatch (w : Word) : kindOf w = .unknown ∨ FixedDigits w (kindOf w) := by
  generalize hk : kindOf w = k
  unfold kindOf at hk
  split at hk
  case h_1 hF => exact kindFamily0_digits hk
  case h_6 hF | h_10 hF =>
    split at hk <;> subst hk
    case isTrue hn => exact .inr ⟨BitVec.eq_of_toNat_eq hF, beq_iff_eq.mpr hn⟩
    case isFalse => exact .inl rfl
  case h_9 hF => exact kindFamily8_digits hF hk
  case h_15 hF => exact kindFamilyE_digits hF hk
  case h_16 hF => exact kindFamilyF_digits hF hk
  case h_17 => exact .inl hk.symm
  all_goals
    rename_i hF
    subst hk
    exact .inr ⟨BitVec.eq_of_toNat_eq hF, rfl⟩

/-- The instruction of some fields is of the kind it was asked for. -/
theorem kind_of_instr? {d : Bundle} {i : Instr} (h : d.instr? = some i) : i.kind = d.kind := by
  unfold Bundle.instr? at h
  split at h <;> cases h <;> simp [Instr.kind, *]

/-- A word with the fixed digits of a kind is the encoding of the instruction of that kind on the word's fields. -/
theorem encode_of_fixedDigits {w : Word} {k : Kind} {i : Instr} (hd : FixedDigits w k)
    (hi : (bundleAs k w).instr? = some i) : encode i = w := by
  obtain ⟨hF, hfix⟩ := hd
  cases k
  case unknown => cases hi
  all_goals obtain rfl := Option.some.inj hi
  case cls | ret => exact word_of_address hF (beq_iff_eq.mp hfix)
  case jp | call | ldINnn | jpV0 => exact word_of_address hF rfl
  case seVxNn | sneVxNn | ldVxNn | addVxNn | rnd => exact word_of_byte hF rfl rfl
  case drw => exact word_of_digits hF rfl rfl rfl
  case skp | sknp | ldVxDt | ldVxK | ldDtVx | ldStVx | addIVx | ldFVx | ldBVx | ldMiVx | ldVxMi =>
    exact word_of_byte hF rfl (beq_iff_eq.mp hfix)
  all_goals exact word_of_digits hF rfl rfl (beq_iff_eq.mp hfix)

/-- The dispatch gives a kind exactly to the words with that kind's fixed digits. -/
theorem kindOf_eq_iff {w : Word} {k : Kind} (hk : k ≠ .unknown) : kindOf w = k ↔ FixedDigits w k := by
  refine ⟨fun h => ?_, fun hd => ?_⟩
  · subst h
    exact (kindOf_dispatch w).resolve_left hk
  · obtain ⟨i, hi⟩ : ∃ i, (bundleAs k w).instr? = some i := by
      cases k
      case unknown => exact absurd rfl hk
      all_goals exact ⟨_, rfl⟩
    rw [← encode_of_fixedDigits hd hi, kindOf_encode, kind_of_instr? hi, bundleAs]

/-- Settles O2: the word is put together again from the fixed digits of its kind and the fields the operands are. -/
theorem decodedWordIsItsEncoding : Obligations.DecodedWordIsItsEncoding := by
  intro w i hi
  have hk : kindOf w ≠ .unknown := fun hu => by
    rw [decode_of_kindOf hu] at hi
    cases hi
  exact encode_of_fixedDigits ((kindOf_eq_iff hk).mp rfl) hi

/-- Settles O5: adjacent fields are one field, and the fixed digits are those the dispatch tested. -/
theorem fieldsOfEveryWordFitTogether : Obligations.FieldsOfEveryWordFitTogether := by
  intro w
  have hlow : (decodeBundle w).lowByteAgrees = true := beq_iff_eq.mpr (fieldY_append_fieldN w).symm
  have haddr : (decodeBundle w).addressAgrees = true := beq_iff_eq.mpr (fieldX_append_fieldY_append_fieldN w).symm
  have hfix : (decodeBundle w).fixedDigitsAgree = true := by
    obtain hu | ⟨-, hfix⟩ := kindOf_dispatch w
    · simp only [Bundle.fixedDigitsAgree, decodeBundle, hu]
    · exact hfix
  exact ⟨by rw [Bundle.wellFormed, hlow, haddr, hfix]; rfl, (fieldF_append_fieldNNN w).symm⟩

/-- Settles O6: each word is decoded by the dispatch. -/
theorem writtenOutWordsDecode : Obligations.WrittenOutWordsDecode := by
  unfold Obligations.WrittenOutWordsDecode
  decide

/-! ## The unknown words -/

theorem eq_ofNat_of_toNat_eq {n k : Nat} {b : BitVec n} (h : b.toNat = k) : b = BitVec.ofNat n k := by
  rw [← h, BitVec.ofNat_toNat, BitVec.setWidth_eq]

theorem decode_eq_none_iff (w : Word) : decode w = none ↔ kindOf w = .unknown := by
  generalize hk : kindOf w = k
  rw [decode_of_kindOf hk]
  cases k <;> simp [bundleAs, Bundle.instr?]

theorem kindFamily0_eq_unknown (w : Word) : kindFamily0 w = .unknown ↔ w ≠ 0x00E0 ∧ w ≠ 0x00EE := by
  unfold kindFamily0
  split
  next h => simp [h]
  next h => split <;> simp_all

theorem kindFamily8_eq_unknown : ∀ n : Nibble, kindFamily8 n = .unknown ↔
    n = 0x8 ∨ n = 0x9 ∨ n = 0xA ∨ n = 0xB ∨ n = 0xC ∨ n = 0xD ∨ n = 0xF := by
  decide

theorem kindFamilyE_eq_unknown (nn : Byte) : kindFamilyE nn = .unknown ↔ nn ≠ 0x9E ∧ nn ≠ 0xA1 := by
  unfold kindFamilyE
  split <;> simp_all [← BitVec.toNat_inj]

theorem kindFamilyF_eq_unknown (nn : Byte) : kindFamilyF nn = .unknown ↔
    nn ≠ 0x07 ∧ nn ≠ 0x0A ∧ nn ≠ 0x15 ∧ nn ≠ 0x18 ∧ nn ≠ 0x1E ∧ nn ≠ 0x29 ∧ nn ≠ 0x33 ∧ nn ≠ 0x55 ∧ nn ≠ 0x65 := by
  unfold kindFamilyF
  split <;> simp_all [← BitVec.toNat_inj]

/-- Settles O4: family by family, by the words its own dispatch leaves UNKNOWN. -/
theorem unknownWordsAreTheListedOnes : Obligations.UnknownWordsAreTheListedOnes := by
  intro w
  rw [decode_eq_none_iff]
  have hlt : (fieldF w).toNat < 16 := (fieldF w).isLt
  interval_cases hF : (fieldF w).toNat <;>
    obtain hF := eq_ofNat_of_toNat_eq hF <;>
    simp [kindOf, hF, kindFamily0_eq_unknown, kindFamily8_eq_unknown, kindFamilyE_eq_unknown, kindFamilyF_eq_unknown]

/-! ## The opcode table -/

/-- A word matches a row with mask FFFF when it is the row's pattern, -/
theorem Row.matches_whole {k : Kind} {p w : Word} :
    Row.matches ⟨k, p, 0xFFFF#16⟩ w = true ↔ fieldF w = fieldF p ∧ fieldNNN w = fieldNNN p := by
  have hm : w &&& 0xFFFF#16 = w := BitVec.and_allOnes
  rw [Row.matches, beq_iff_eq, hm]
  refine ⟨fun h => h ▸ ⟨rfl, rfl⟩, fun ⟨hF, hNNN⟩ => ?_⟩
  exact (word_of_address hF hNNN).symm.trans (word_of_address rfl rfl)

/-- with mask F000 when it has the pattern's family digit, -/
theorem Row.matches_family {k : Kind} {p w : Word} (hp : fieldNNN p = 0) :
    Row.matches ⟨k, p, 0xF000#16⟩ w = true ↔ fieldF w = fieldF p := by
  have hF : fieldF (w &&& 0xF000#16) = fieldF w := BitVec.extractLsb'_and.trans BitVec.and_allOnes
  have hNNN : fieldNNN (w &&& 0xF000#16) = 0 := BitVec.extractLsb'_and.trans BitVec.and_zero
  rw [Row.matches, beq_iff_eq, ← hF]
  refine ⟨fun h => h ▸ rfl, fun h => ?_⟩
  exact (word_of_address h (hNNN.trans hp.symm)).symm.trans (word_of_address rfl rfl)

/-- with mask F00F when it has the pattern's family digit and last digit, -/
theorem Row.matches_digit {k : Kind} {p w : Word} (hpX : fieldX p = 0) (hpY : fieldY p = 0) :
    Row.matches ⟨k, p, 0xF00F#16⟩ w = true ↔ fieldF w = fieldF p ∧ fieldN w = fieldN p := by
  have hF : fieldF (w &&& 0xF00F#16) = fieldF w := BitVec.extractLsb'_and.trans BitVec.and_allOnes
  have hX : fieldX (w &&& 0xF00F#16) = 0 := BitVec.extractLsb'_and.trans BitVec.and_zero
  have hY : fieldY (w &&& 0xF00F#16) = 0 := BitVec.extractLsb'_and.trans BitVec.and_zero
  have hN : fieldN (w &&& 0xF00F#16) = fieldN w := BitVec.extractLsb'_and.trans BitVec.and_allOnes
  rw [Row.matches, beq_iff_eq, ← hF, ← hN]
  refine ⟨fun h => h ▸ ⟨rfl, rfl⟩, fun ⟨h, h'⟩ => ?_⟩
  exact (word_of_digits h (hX.trans hpX.symm) (hY.trans hpY.symm) h').symm.trans (word_of_digits rfl rfl rfl rfl)

/-- and with mask F0FF when it has the pattern's family digit and last two digits. -/
theorem Row.matches_byte {k : Kind} {p w : Word} (hpX : fieldX p = 0) :
    Row.matches ⟨k, p, 0xF0FF#16⟩ w = true ↔ fieldF w = fieldF p ∧ fieldNN w = fieldNN p := by
  have hF : fieldF (w &&& 0xF0FF#16) = fieldF w := BitVec.extractLsb'_and.trans BitVec.and_allOnes
  have hX : fieldX (w &&& 0xF0FF#16) = 0 := BitVec.extractLsb'_and.trans BitVec.and_zero
  have hNN : fieldNN (w &&& 0xF0FF#16) = fieldNN w := BitVec.extractLsb'_and.trans BitVec.and_allOnes
  rw [Row.matches, beq_iff_eq, ← hF, ← hNN]
  refine ⟨fun h => h ▸ ⟨rfl, rfl⟩, fun ⟨h, h'⟩ => ?_⟩
  exact (word_of_byte h (hX.trans hpX.symm) h').symm.trans (word_of_byte rfl rfl rfl)

/-- The masks and patterns of the rows are the fixed digits of their kinds (R49). -/
theorem Row.matches_iff_fixedDigits (w : Word) : ∀ r ∈ opcodeTable, (r.matches w = true ↔ FixedDigits w r.kind) := by
  rintro ⟨k, p, m⟩ hr
  cases k <;> simp only [opcodeTable, opcodeRowsLow, opcodeRowsRegister, opcodeRowsHigh, List.cons_append, List.nil_append,
    List.mem_cons, List.not_mem_nil, Row.mk.injEq, reduceCtorEq, true_and, false_and, or_false, false_or] at hr
  all_goals obtain ⟨rfl, rfl⟩ := hr
  case cls | ret => exact Row.matches_whole.trans (and_congr_right' beq_iff_eq.symm)
  case jp | call | seVxNn | sneVxNn | ldVxNn | addVxNn | ldINnn | jpV0 | rnd | drw =>
    exact (Row.matches_family rfl).trans (and_iff_left rfl).symm
  case skp | sknp | ldVxDt | ldVxK | ldDtVx | ldStVx | addIVx | ldFVx | ldBVx | ldMiVx | ldVxMi =>
    exact (Row.matches_byte rfl).trans (and_congr_right' beq_iff_eq.symm)
  all_goals exact (Row.matches_digit rfl rfl).trans (and_congr_right' beq_iff_eq.symm)

theorem Row.matches_iff_kindOf {w : Word} {r : Row} (hr : r ∈ opcodeTable) : r.matches w = decide (kindOf w = r.kind) := by
  have hk : ∀ r ∈ opcodeTable, r.kind ≠ .unknown := by decide
  rw [Bool.eq_iff_iff, decide_eq_true_iff, kindOf_eq_iff (hk r hr), Row.matches_iff_fixedDigits w r hr]

/-- Settles O3: a row is matched exactly by the words of its kind, and no two rows are of one kind. -/
theorem dispatchAgreesWithTheOpcodeTable : Obligations.DispatchAgreesWithTheOpcodeTable := by
  intro w
  have hfind : opcodeTable.find? (fun r => r.matches w) = opcodeTable.find? (fun r => decide (kindOf w = r.kind)) :=
    List.find?_congr fun r hr => Row.matches_iff_kindOf hr
  rw [hfind, List.filter_congr fun r hr => Row.matches_iff_kindOf hr]
  cases kindOf w <;> decide

end Sys2Proof
end

section
/-! Canonical memory (log 8): an address below the first entry reads as the reset contents, so the first entries of two
canonical memories that read alike stand at one address. -/

namespace Sys2Proof.Machine

theorem Memory.readAt_of_lt {lo a : Nat} {m : Memory} (h : Memory.wfFrom lo m = true) (ha : a < lo) :
    m.readAt a = resetByte a := by
  induction m generalizing lo with
  | nil => rfl
  | cons c m ih =>
    obtain ⟨hlo, -, -, hm⟩ := (Memory.wfFrom_cons lo c m).mp h
    rw [Memory.readAt_cons, if_neg (by omega), ih hm (by omega)]

/-- The first entry of a canonical memory shows: its address does not read as the reset contents. -/
theorem Memory.readAt_head {lo : Nat} {c : Host.Cell} {m : Memory} (h : Memory.wfFrom lo (c :: m) = true) :
    Memory.readAt (c :: m) c.1 ≠ resetByte c.1 := by
  obtain ⟨-, -, hc, -⟩ := (Memory.wfFrom_cons lo c m).mp h
  rwa [Memory.readAt_cons, if_pos rfl]

/-- So a canonical memory that reads as another does at its first address has no later first address. -/
theorem Memory.head_le {lo lo' : Nat} {c c' : Host.Cell} {m m' : Memory} (h : Memory.wfFrom lo (c :: m) = true)
    (h' : Memory.wfFrom lo' (c' :: m') = true) (hr : Memory.readAt (c :: m) c.1 = Memory.readAt (c' :: m') c.1) :
    c'.1 ≤ c.1 := by
  obtain ⟨-, hrest⟩ := (Memory.wfFrom_cons lo' c' m').mp h'
  have hw : Memory.wfFrom c'.1 (c' :: m') = true := (Memory.wfFrom_cons c'.1 c' m').mpr ⟨le_refl _, hrest⟩
  by_contra hgt
  exact Memory.readAt_head h (hr.trans (Memory.readAt_of_lt hw (by omega)))

theorem Memory.eq_of_readAt_eq {lo : Nat} {m m' : Memory} (h : Memory.wfFrom lo m = true) (h' : Memory.wfFrom lo m' = true)
    (hr : ∀ a, m.readAt a = m'.readAt a) : m = m' := by
  induction m generalizing lo m' with
  | nil =>
    cases m' with
    | nil => rfl
    | cons c' m' => exact absurd (hr c'.1).symm (Memory.readAt_head h')
  | cons c m ih =>
    cases m' with
    | nil => exact absurd (hr c.1) (Memory.readAt_head h)
    | cons c' m' =>
      have ha : c.1 = c'.1 := Nat.le_antisymm (Memory.head_le h' h (hr _).symm) (Memory.head_le h h' (hr _))
      have hb : c.2 = c'.2 := by
        have := hr c.1
        rwa [Memory.readAt_cons, Memory.readAt_cons, if_pos rfl, if_pos ha] at this
      obtain ⟨-, -, -, hm⟩ := (Memory.wfFrom_cons lo c m).mp h
      obtain ⟨-, -, -, hm'⟩ := (Memory.wfFrom_cons lo c' m').mp h'
      rw [← ha] at hm'
      have htail : ∀ a, Memory.readAt m a = Memory.readAt m' a := fun a => by
        by_cases hle : a < c.1 + 1
        · rw [Memory.readAt_of_lt hm hle, Memory.readAt_of_lt hm' hle]
        · have := hr a
          rwa [Memory.readAt_cons, Memory.readAt_cons, if_neg (by omega), if_neg (by omega)] at this
      rw [ih hm hm' htail, Prod.ext ha hb]

/-- Settles O7: by induction on the entries. -/
theorem canonicalMemoriesThatReadAlikeAreEqual : Obligations.CanonicalMemoriesThatReadAlikeAreEqual :=
  fun _ _ h h' hr => Memory.eq_of_readAt_eq h h' hr

end Sys2Proof.Machine
end

section
/-! What each instruction may change, said once: `mayChange` is the frame of every instruction that does not fault, and the
statements on who writes what are read off it. -/

namespace Sys2Proof.Machine

/-- What an instruction may change where it does not fault. -/
def mayChange (i : Instr) (s : State) : Changes :=
  match i with
  | .cls => { pix := true, redraw := true }
  | .ret => { pc := true, sp := true }
  | .call _ => { pc := true, stack := true, sp := true }
  | .jp _ | .jpV0 _ | .seVxNn _ _ | .sneVxNn _ _ | .seVxVy _ _ | .sneVxVy _ _ | .skp _ | .sknp _ => { pc := true }
  | .ldVxNn x _ | .addVxNn x _ | .ldVxVy x _ | .orVxVy x _ | .andVxVy x _ | .xorVxVy x _ | .ldVxDt x =>
    { regs := fun r => r == x }
  | .addVxVy x _ | .subVxVy x _ | .shrVx x _ | .subnVxVy x _ | .shlVx x _ => { regs := fun r => r == x || r == vf }
  | .rnd x _ => { regs := fun r => r == x, inputs := true }
  | .drw _ _ _ => { regs := fun r => r == vf, pix := true, redraw := true }
  | .ldVxK x => { regs := fun r => r == x, pc := true }
  | .ldINnn _ | .addIVx _ | .ldFVx _ => { i := true }
  | .ldDtVx _ => { dt := true }
  | .ldStVx _ => { st := true }
  | .ldBVx _ => { mem := fun a => decide (s.effAddr 0 ≤ a ∧ a < s.effAddr 3) }
  | .ldMiVx x => { mem := fun a => decide (s.effAddr 0 ≤ a ∧ a < s.effAddr (x.toNat + 1)) }
  | .ldVxMi x => { regs := fun r => decide (r.toNat ≤ x.toNat) }

/-! ## Frames of the writes -/

theorem frame_refl (c : Changes) (s : State) : Frame c s s := by simp [Frame]

/-- A register write to a register that may change keeps a frame. -/
theorem Frame.setReg {c : Nibble → Bool} {s t : State} {x : Nibble} (b : Byte) (h : Frame { regs := c } s t)
    (hx : c x = true) : Frame { regs := c } s (t.setReg x b) := by
  obtain ⟨hregs, hmem, hrest⟩ := h
  refine ⟨fun r hr => ?_, hmem, hrest⟩
  have hne : r ≠ x := fun he => by simp [he, hx] at hr
  rw [State.reg_setReg_of_ne _ _ _ _ hne, hregs r hr]

theorem frame_skipIf (s : State) (c : Bool) : Frame { pc := true } s (s.skipIf c) := by
  rw [State.skipIf_eq]
  exact frame_setPc s _

/-- A frame that lets registers change stays one when PC may change too. -/
theorem frame_regs_pc_of_regs {c : Nibble → Bool} {s t : State} (h : Frame { regs := c } s t) :
    Frame { regs := c, pc := true } s t := by
  obtain ⟨hregs, hmem, hi, -, hrest⟩ := h
  exact ⟨hregs, hmem, hi, by simp, hrest⟩

/-- Writes of V[X] and then of VF, or of VF and then of V[X], change these two only. -/
theorem frame_setReg_vf (s : State) (x : Nibble) (b f : Byte) :
    Frame { regs := fun r => r == x || r == vf } s ((s.setReg x b).setReg vf f) :=
  ((frame_refl _ s).setReg b (by simp)).setReg f (by simp)

theorem frame_flagThenReg (s : State) (x : Nibble) (flag : Byte) (value : State → Byte) :
    Frame { regs := fun r => r == x || r == vf } s (flagThenReg x flag value s) :=
  ((frame_refl _ s).setReg flag (by simp)).setReg _ (by simp)

theorem frame_drawn {sprite : Nat → Nat → Bool} {s t : State} {b : Byte} (h : Drawn sprite (s.setReg vf b) t) :
    Frame { regs := fun r => r == vf, pix := true, redraw := true } s (t.setRedraw true) := by
  obtain ⟨hregs, p, w, rfl⟩ := (OnlyDrawn.setReg s b).trans h.only
  exact ⟨fun r hr => hregs r (beq_eq_false_iff_ne.mp hr), by simp [State.byteAt]⟩

/-- FX0A writes V[X] or takes PC back, as the keypad scan answers. -/
theorem ldVxK_cases {x : Nibble} {s t : State} (h : exec (.ldVxK x) s = .next t) :
    (∃ b, t = s.setReg x b) ∨ t = s.setPc (s.pc - 2) := by
  cases hk : s.firstKey with
  | some k => exact .inl ⟨_, Host.Outcome.next.inj (h.symm.trans (exec_ldVxK_of_pressed hk))⟩
  | none => exact .inr (Host.Outcome.next.inj (h.symm.trans (exec_ldVxK_of_none hk)))

/-- Where no fault is ruled, an instruction changes nothing but what it may change. -/
theorem exec_frame {i : Instr} {s t : State} (hf : ruledFault i s = none) (h : exec i s = .next t) :
    Frame (mayChange i s) s t := by
  have he := exec_effect hf h
  cases i
  case ret => obtain ⟨k, hk, -, rfl⟩ := he; simp [Frame, mayChange]
  case call nnn => obtain ⟨hk, rfl⟩ := he; simp [Frame, mayChange]
  case skp x => obtain ⟨hk, rfl⟩ := he; exact frame_skipIf s _
  case sknp x => obtain ⟨hk, rfl⟩ := he; exact frame_skipIf s _
  case drw x y n => obtain ⟨u, rfl, hd⟩ := he; exact frame_drawn hd
  case ldBVx x =>
    obtain ⟨hlt, -⟩ := he
    obtain ⟨t', ht', -, -, -, hframe⟩ := ldBVx_completes (x := x) hlt
    rw [h] at ht'
    exact (Host.Outcome.next.inj ht') ▸ hframe
  case ldMiVx x => obtain ⟨m, rfl, -, hm⟩ := he; exact frame_setMem fun a ha => by rw [hm, if_neg (of_decide_eq_false ha)]
  case ldVxMi x =>
    obtain ⟨w, rfl, hreg⟩ := he
    refine frame_setV fun r hr => ?_
    have hgt : ¬ r.toNat ≤ x.toNat := of_decide_eq_false hr
    rw [hreg, if_neg (by omega)]
  case ldVxK x =>
    obtain ⟨b, rfl⟩ | rfl := ldVxK_cases h
    · exact frame_regs_pc_of_regs (frame_setReg s x b)
    · simp [Frame, mayChange]
  all_goals obtain rfl := Host.Outcome.next.inj h
  case cls => simp [Frame, mayChange]
  case seVxNn | sneVxNn | seVxVy | sneVxVy => exact frame_skipIf s _
  case jp | jpV0 => exact frame_setPc s _
  case ldVxNn | addVxNn | ldVxVy | orVxVy | andVxVy | xorVxVy | ldVxDt => exact frame_setReg s _ _
  case addVxVy => exact frame_setReg_vf s _ _ _
  case subVxVy | shrVx | subnVxVy | shlVx => exact frame_flagThenReg s _ _ _
  case ldINnn | addIVx | ldFVx => exact frame_setI s _
  case ldDtVx => exact frame_setDt s _
  case ldStVx => exact frame_setSt s _
  case rnd x nn =>
    refine ⟨fun r hr => ?_, by simp [mayChange]⟩
    rw [State.reg_setReg_of_ne _ _ _ _ (beq_eq_false_iff_ne.mp hr), State.reg_dropDraw]
/-! ## Faults -/

/-- Every instruction answers a next state (60_exceptions.md R107). -/
theorem exec_next (i : Instr) (s : State) : ∃ t, exec i s = .next t := by
  cases i
  case ret | call | skp | sknp | drw | ldBVx | ldMiVx | ldVxMi => exact finish_next s _
  case ldVxK x =>
    cases hk : s.firstKey with
    | some k => exact ⟨_, exec_ldVxK_of_pressed hk⟩
    | none => exact ⟨_, exec_ldVxK_of_none hk⟩
  all_goals exact ⟨_, rfl⟩

/-- No instruction may change the status or the keypad where it does not fault. -/
theorem mayChange_status (i : Instr) (s : State) : (mayChange i s).status = false := by cases i <;> rfl
theorem mayChange_key (i : Instr) (s : State) : (mayChange i s).key = false := by cases i <;> rfl

/-- Settles O12: a ruled fault is taken, and where none is ruled the status is in the frame. -/
theorem instructionsFaultExactlyWhereRuled : Obligations.InstructionsFaultExactlyWhereRuled := by
  intro i s
  cases hf : ruledFault i s with
  | some e => exact ⟨_, exec_of_ruled hf, takeFault_status _ _ _⟩
  | none =>
    obtain ⟨t, ht⟩ := exec_next i s
    obtain ⟨-, -, -, -, -, -, -, -, -, -, -, hstatus, -⟩ := exec_frame hf ht
    exact ⟨t, ht, hstatus (mayChange_status i s)⟩

/-! ## Who writes what -/

theorem setKey_of_running {s : State} (k : Nibble) (b : Bool) (h : s.status = .running) :
    setKey k b s = .next (s.setKeys (s.key.set k.toNat b k.isLt)) :=
  whenRunning_of_running _ h

/-- Settles O13: SET_KEY is one write of one key flag; the keypad is in every instruction's frame. -/
theorem onlySetKeyWritesTheKeypad : Obligations.OnlySetKeyWritesTheKeypad := by
  refine ⟨fun k b s hrun => ⟨_, setKey_of_running k b hrun, fun j hj => ?_, by simp [Frame]⟩, fun i s t hf ht => ?_⟩
  · simp [Vector.getElem_set, eq_comm]
  · obtain ⟨-, -, -, -, -, -, -, -, -, -, hkey, -⟩ := exec_frame hf ht
    exact hkey (mayChange_key i s)

theorem mayChange_i {i : Instr} (s : State) (h1 : i.kind ≠ .ldINnn) (h2 : i.kind ≠ .addIVx) (h3 : i.kind ≠ .ldFVx) :
    (mayChange i s).i = false := by
  cases i
  case ldINnn => exact absurd rfl h1
  case addIVx => exact absurd rfl h2
  case ldFVx => exact absurd rfl h3
  all_goals rfl

theorem mayChange_stack {i : Instr} (s : State) (h1 : i.kind ≠ .call) (h2 : i.kind ≠ .ret) :
    (mayChange i s).stack = false ∧ (mayChange i s).sp = false := by
  cases i
  case call => exact absurd rfl h1
  case ret => exact absurd rfl h2
  all_goals exact ⟨rfl, rfl⟩

theorem mayChange_dt {i : Instr} (s : State) (h : i.kind ≠ .ldDtVx) : (mayChange i s).dt = false := by
  cases i
  case ldDtVx => exact absurd rfl h
  all_goals rfl

theorem mayChange_st {i : Instr} (s : State) (h : i.kind ≠ .ldStVx) : (mayChange i s).st = false := by
  cases i
  case ldStVx => exact absurd rfl h
  all_goals rfl

theorem mayChange_screen {i : Instr} (s : State) (h1 : i.kind ≠ .cls) (h2 : i.kind ≠ .drw) :
    (mayChange i s).pix = false ∧ (mayChange i s).redraw = false := by
  cases i
  case cls => exact absurd rfl h1
  case drw => exact absurd rfl h2
  all_goals exact ⟨rfl, rfl⟩

/-- Settles O14: each register is in the frame of every instruction but its writers. -/
theorem specialRegistersHaveOnlyTheirWriters : Obligations.SpecialRegistersHaveOnlyTheirWriters := by
  intro i s t hf ht
  obtain ⟨-, -, hi, -, hstack, hsp, hdt, hst, -⟩ := exec_frame hf ht
  refine ⟨fun h1 h2 h3 => hi (mayChange_i s h1 h2 h3), fun h1 h2 => ?_, fun h => hdt (mayChange_dt s h),
    fun h => hst (mayChange_st s h)⟩
  obtain ⟨hstack', hsp'⟩ := mayChange_stack s h1 h2
  exact ⟨hstack hstack', hsp hsp'⟩

/-- Settles O15: pixels and redraw are in the frame of every instruction but 00E0 and DXYN, and these set redraw. -/
theorem screenIsWrittenOnlyByClearAndDraw : Obligations.ScreenIsWrittenOnlyByClearAndDraw := by
  intro i s t hf ht
  obtain ⟨-, -, -, -, -, -, -, -, hpix, hredraw, -⟩ := exec_frame hf ht
  refine ⟨fun h1 h2 => ?_, fun h => ?_⟩
  · obtain ⟨hpix', hredraw'⟩ := mayChange_screen s h1 h2
    exact ⟨hpix hpix', hredraw hredraw'⟩
  · cases i
    case cls => obtain rfl := Host.Outcome.next.inj ht; rfl
    case drw => obtain ⟨u, rfl, -⟩ := exec_effect hf ht; rfl
    all_goals exact (hredraw rfl).trans h

/-- Settles O16: only the frames of FX33 and FX55 let a byte change, each in the range it stores to. -/
theorem memoryIsWrittenOnlyByTheStores : Obligations.MemoryIsWrittenOnlyByTheStores := by
  intro i s t hf ht a
  obtain ⟨-, hmem, -⟩ := exec_frame hf ht
  cases i
  case ldBVx x =>
    by_cases ha : s.effAddr 0 ≤ a ∧ a < s.effAddr 3
    · exact .inr (.inl ⟨x, rfl, ha⟩)
    · exact .inl (hmem a (decide_eq_false ha))
  case ldMiVx x =>
    by_cases ha : s.effAddr 0 ≤ a ∧ a < s.effAddr (x.toNat + 1)
    · exact .inr (.inr ⟨x, rfl, ha⟩)
    · exact .inl (hmem a (decide_eq_false ha))
  all_goals exact .inl (hmem a rfl)

/-- Settles O17: where VF may change and the instruction is no flag writer, its X is F. -/
theorem flagIsWrittenOnlyByItsWriters : Obligations.FlagIsWrittenOnlyByItsWriters := by
  intro i s t hf ht h1 h2 h3 h4 h5 h6
  obtain ⟨hregs, -⟩ := exec_frame hf ht
  by_cases hv : (mayChange i s).regs vf = false
  · exact .inl (hregs vf hv)
  right
  cases i
  case addVxVy => exact absurd rfl h1
  case subVxVy => exact absurd rfl h2
  case shrVx => exact absurd rfl h3
  case subnVxVy => exact absurd rfl h4
  case shlVx => exact absurd rfl h5
  case drw => exact absurd rfl h6
  case ldVxNn x nn | addVxNn x nn | rnd x nn =>
    obtain rfl : vf = x := by simpa [mayChange] using hv
    exact .inl ⟨nn, by simp⟩
  case ldVxVy x y | orVxVy x y | andVxVy x y | xorVxVy x y =>
    obtain rfl : vf = x := by simpa [mayChange] using hv
    exact .inr (.inl ⟨y, by simp⟩)
  case ldVxDt x | ldVxK x =>
    obtain rfl : vf = x := by simpa [mayChange] using hv
    simp
  case ldVxMi x =>
    have hx : 15 ≤ x.toNat := by simpa [mayChange] using hv
    obtain rfl : x = vf := BitVec.eq_of_toNat_eq (Nat.le_antisymm (Nat.le_of_lt_succ x.isLt) hx)
    simp
  all_goals exact absurd rfl hv

end Sys2Proof.Machine
end

section
/-! The step and the invariant (30_encoding.md R59 to R65). A step of a Running CORE is one of three: a fetch that faults, an
UNKNOWN word passed, or the decoded instruction run; each statement goes by these. -/

namespace Sys2Proof.Machine

/-! ## The three steps -/

theorem step_of_fetchFault {s : State} (hrun : s.status = .running) (h : 4096 ≤ s.pc.toNat + 1) :
    step s = .next (takeFault ⟨.memOutOfRange, max s.pc.toNat 4096⟩ (some s.pc) s) ∧ stepDiag s = none := by
  unfold step stepDiag
  rw [stepOutput_of_running hrun, cycle_fault h]
  exact ⟨rfl, rfl⟩

theorem step_of_instr {s : State} {i : Instr} (h : s.AtInstr i) : step s = exec i s.advance ∧ stepDiag s = none := by
  obtain ⟨hrun, hpc, hd⟩ := h
  unfold step stepDiag
  rw [stepOutput_of_running hrun, cycle_instr hpc hd]
  exact ⟨rfl, rfl⟩

theorem step_of_unknown {s : State} (hrun : s.status = .running) (hpc : s.pc.toNat + 1 < 4096)
    (hd : decode s.wordAtPc = none) : step s = .next s.advance ∧ stepDiag s = some ⟨s.wordAtPc, s.pc⟩ := by
  unfold step stepDiag
  rw [stepOutput_of_running hrun, cycle_unknown hpc hd]
  exact ⟨rfl, rfl⟩

/-- Settles O8: the advance is the write of PC + 2. -/
theorem stepRunsTheDecodedInstruction : Obligations.StepRunsTheDecodedInstruction := fun _ _ => step_of_instr

/-- Settles O9: the fetch reads a word below 0xFFF, and its fault is the step's. -/
theorem fetchIsBigEndianOrFaults : Obligations.FetchIsBigEndianOrFaults := by
  refine fun s => ⟨fun h => fetch_ok (by omega), fun hrun h => ?_, fun hrun h => ?_⟩
  · refine ⟨_, (step_of_fetchFault hrun (by omega)).1, ?_⟩
    rw [takeFault_status, h]
    rfl
  · refine ⟨_, (step_of_fetchFault hrun (by omega)).1, ?_⟩
    rw [takeFault_status, max_eq_left h]

/-- Settles O10: the third of the steps. -/
theorem unknownWordOnlyAdvances : Obligations.UnknownWordOnlyAdvances := fun _ => step_of_unknown

theorem State.advance_pc_sub (s : State) : s.advance.pc - 2 = s.pc := by
  rw [State.advance_pc, BitVec.add_sub_cancel]

/-- Settles O11: by the three steps; an instruction that faults does so against its own address, which is the fetch address. -/
theorem runningStepCompletesOrFaults : Obligations.RunningStepCompletesOrFaults := by
  intro s hrun
  by_cases hpc : 4096 ≤ s.pc.toNat + 1
  · obtain ⟨hstep, hdiag⟩ := step_of_fetchFault hrun hpc
    exact ⟨_, hstep, .inr ⟨hdiag, _, _, takeFault_status _ _ _⟩⟩
  cases hd : decode s.wordAtPc with
  | none => exact ⟨_, (step_of_unknown hrun (by omega) hd).1, .inl hrun⟩
  | some i =>
    obtain ⟨hstep, hdiag⟩ := step_of_instr ⟨hrun, by omega, hd⟩
    obtain ⟨t, ht, hstatus⟩ := instructionsFaultExactlyWhereRuled i s.advance
    rw [State.advance_pc_sub] at hstatus
    refine ⟨t, hstep.trans ht, ?_⟩
    cases hf : ruledFault i s.advance with
    | none => exact .inl (by rw [hstatus, hf]; exact hrun)
    | some e => exact .inr ⟨hdiag, _, _, by rw [hstatus, hf]; rfl⟩

/-! ## The invariant -/

/-- Every live return address is at most 0x1000. -/
def State.SlotsBounded (s : State) : Prop := ∀ k (h : k < 16), k < s.sp.val → (s.stack[k]).toNat ≤ 0x1000

/-- A Faulted CORE meets the invariant when its memory is canonical. -/
theorem State.Inv.of_faulted {s : State} (hw : s.mem.wf = true) (h : s.status ≠ .running) : s.Inv :=
  ⟨hw, fun hrun => absurd hrun h⟩

theorem takeFault_inv (r : Raise) (a : Option Word) (s : State) : (takeFault r a s).Inv :=
  .of_faulted (takeFault_mem_wf r a s) (by simp)

/-- The invariant reads memory, status, PC and the call stack only. -/
theorem State.Inv.congr {s t : State} (h : s.Inv) (hmem : t.mem = s.mem) (hstatus : t.status = s.status)
    (hpc : t.pc = s.pc) (hstack : t.stack = s.stack) (hsp : t.sp = s.sp) : t.Inv := by
  unfold State.Inv
  rw [hmem, hstatus, hpc, hstack, hsp]
  exact h

/-- An instruction keeps memory canonical. -/
theorem exec_mem_wf {i : Instr} {s t : State} (hf : ruledFault i s = none) (h : exec i s = .next t)
    (hw : s.mem.wf = true) : t.mem.wf = true := by
  have he := exec_effect hf h
  cases i
  case ret => obtain ⟨k, hk, -, rfl⟩ := he; exact hw
  case call nnn => obtain ⟨hk, rfl⟩ := he; exact hw
  case skp | sknp => obtain ⟨hk, rfl⟩ := he; rw [State.skipIf_eq]; exact hw
  case drw x y n =>
    obtain ⟨u, rfl, hd⟩ := he
    obtain ⟨-, p, w, rfl⟩ := hd.only
    exact hw
  case ldBVx x =>
    obtain ⟨hlt, rfl⟩ := he
    have h0 : s.effAddr 0 ≤ s.effAddr 2 := effAddr_le_effAddr.mpr (by decide)
    have h1 : s.effAddr 1 ≤ s.effAddr 2 := effAddr_le_effAddr.mpr (by decide)
    exact Memory.wf_writeAt _ (Memory.wf_writeAt _ (Memory.wf_writeAt _ hw (by omega)) (by omega)) hlt
  case ldMiVx x => obtain ⟨m, rfl, hm, -⟩ := he; exact hm hw
  case ldVxMi x => obtain ⟨w, rfl, -⟩ := he; exact hw
  case ldVxK x =>
    obtain ⟨b, rfl⟩ | rfl := ldVxK_cases h
    · exact hw
    · exact hw
  all_goals obtain rfl := Host.Outcome.next.inj h
  case seVxNn | sneVxNn | seVxVy | sneVxVy => rw [State.skipIf_eq]; exact hw
  case rnd => rw [State.setReg_mem, State.dropDraw_mem]; exact hw
  all_goals exact hw

/-- Below the top of the address range PC + 2 does not wrap. -/
theorem toNat_add_two {w : Word} (h : w.toNat + 2 < 65536) : (w + 2).toNat = w.toNat + 2 :=
  BitVec.toNat_add_of_lt h

theorem skip_bounded {w : Word} (h : w.toNat ≤ 0x1000) (c : Bool) : (if c then w + 2 else w).toNat ≤ 0x10FE := by
  split
  · rw [toNat_add_two (by omega)]
    omega
  · omega

/-- From an advanced PC of at most 0x1000 and return addresses of at most 0x1000, an instruction leaves PC at most 0x10FE:
only BNNN, with NNN + V[0], comes above 0x1002 (R64). -/
theorem exec_pc_bounded {i : Instr} {s t : State} (hf : ruledFault i s = none) (h : exec i s = .next t)
    (hpc : 2 ≤ s.pc.toNat ∧ s.pc.toNat ≤ 0x1000) (hs : s.SlotsBounded) : t.pc.toNat ≤ 0x10FE := by
  have he := exec_effect hf h
  obtain ⟨-, -, -, hframe, -⟩ := exec_frame hf h
  obtain ⟨h2, hle⟩ := hpc
  cases i
  case ret =>
    obtain ⟨k, hk, hsp, rfl⟩ := he
    have := hs k hk (by omega)
    rw [State.setSp_pc, State.setPc_pc]
    omega
  case call nnn =>
    obtain ⟨-, rfl⟩ := he
    have hn := nnn.isLt
    rw [State.setPc_pc, zextAddr_toNat]
    omega
  case jp nnn =>
    obtain rfl := Host.Outcome.next.inj h
    have hn := nnn.isLt
    rw [State.setPc_pc, zextAddr_toNat]
    omega
  case jpV0 nnn =>
    obtain rfl := Host.Outcome.next.inj h
    have hn := nnn.isLt
    have hv := (s.reg 0).isLt
    rw [State.setPc_pc, zextAddr_add_zextByte_toNat]
    omega
  case skp | sknp => obtain ⟨hk, rfl⟩ := he; rw [State.skipIf_eq]; exact skip_bounded hle _
  case seVxNn | sneVxNn | seVxVy | sneVxVy =>
    obtain rfl := Host.Outcome.next.inj h; rw [State.skipIf_eq]; exact skip_bounded hle _
  case ldVxK x =>
    obtain ⟨b, rfl⟩ | rfl := ldVxK_cases h
    · rw [State.setReg_pc]
      omega
    · rw [State.setPc_pc]
      bv_omega
  all_goals
    rw [hframe rfl]
    omega

/-- The live return addresses stay bounded: a call pushes the advanced PC, and no other instruction adds a slot. -/
theorem exec_slotsBounded {i : Instr} {s t : State} (hf : ruledFault i s = none) (h : exec i s = .next t)
    (hpc : s.pc.toNat ≤ 0x1000) (hs : s.SlotsBounded) : t.SlotsBounded := by
  have he := exec_effect hf h
  obtain ⟨-, -, -, -, hstack, hsp, -⟩ := exec_frame hf h
  intro j hj hlive
  cases i
  case ret =>
    obtain ⟨k, hk, hksp, rfl⟩ := he
    have hjk : j < k := hlive
    exact hs j hj (by omega)
  case call nnn =>
    obtain ⟨hfree, rfl⟩ := he
    have hle : j < s.sp.val + 1 := hlive
    simp only [State.setPc_stack, State.setSp_stack, State.setStack_stack, Vector.getElem_set]
    split
    · exact hpc
    · exact hs j hj (by omega)
  all_goals
    simp only [hstack rfl]
    rw [hsp rfl] at hlive
    exact hs j hj hlive

/-- Settles O18: at reset no return address is live. -/
theorem resetMeetsTheInvariant : Obligations.ResetMeetsTheInvariant :=
  ⟨State.reset_mem_wf, fun _ => ⟨by decide, fun _ _ hlive => absurd hlive (Nat.not_lt_zero _)⟩⟩

/-- An instruction run by a step keeps the invariant. -/
theorem exec_inv {i : Instr} {s t : State} (h : s.AtInstr i) (hinv : s.Inv) (ht : exec i s.advance = .next t) : t.Inv := by
  obtain ⟨hrun, hpc, -⟩ := h
  obtain ⟨hw, hbound⟩ := hinv
  obtain ⟨-, hs⟩ := hbound hrun
  have hadv : s.advance.pc.toNat = s.pc.toNat + 2 := toNat_add_two (by omega)
  cases hf : ruledFault i s.advance with
  | some e =>
    obtain rfl := Host.Outcome.next.inj ((exec_of_ruled hf).symm.trans ht)
    exact takeFault_inv _ _ _
  | none =>
    exact ⟨exec_mem_wf hf ht hw, fun _ => ⟨exec_pc_bounded hf ht (by omega) hs, exec_slotsBounded hf ht (by omega) hs⟩⟩

/-- Settles O19: by the three steps. -/
theorem everyStepKeepsTheInvariant : Obligations.EveryStepKeepsTheInvariant := by
  intro s t hinv hstep
  obtain ⟨hrun, ⟨-, rfl⟩ | ⟨hpc, i, hd, ht⟩ | ⟨hpc, -, rfl⟩⟩ := step_cases hstep
  · exact takeFault_inv _ _ _
  · exact exec_inv ⟨hrun, hpc, hd⟩ hinv ht
  · obtain ⟨hw, hbound⟩ := hinv
    refine ⟨hw, fun _ => ⟨?_, (hbound hrun).2⟩⟩
    rw [State.advance_pc, toNat_add_two (by omega)]
    omega

end Sys2Proof.Machine
end

section
/-! The host's operations (60_exceptions.md R117 to R123, 70_reset_and_hazards.md R128 to R131). Each answers one equation while
the CORE is Running and the stop while it is Faulted; RESET answers in any status. -/

namespace Sys2Proof.Machine

/-! ## What the operations answer -/

theorem tick_of_running {s : State} (h : s.status = .running) :
    tick s = .next ((s.setDt (decay s.dt)).setSt (decay s.st)) :=
  whenRunning_of_running _ h

theorem load_of_running {image : List Byte} {s : State} (h : s.status = .running) :
    load image s = .next
      (if 3584 < image.length then rejectImage image.length s else s.copyIn Config.progBase image) :=
  whenRunning_of_running _ h

theorem step_of_faulted {s : State} {k : FaultKind} {n : Nat} {a : Option Word} (h : s.status = .faulted k n a) :
    step s = .fault (.coreFaulted k n a) := by
  unfold step stepOutput
  rw [h]

theorem stepWithDraw_of_step {d : Byte} {s t : State} (h : step (s.setDraws [d]) = .next t) :
    stepWithDraw d s = .next (t.setDraws []) := by
  unfold stepWithDraw
  rw [h]

theorem stepWithDraw_of_faulted {d : Byte} {s : State} {k : FaultKind} {n : Nat} {a : Option Word}
    (h : s.status = .faulted k n a) : stepWithDraw d s = .fault (.coreFaulted k n a) := by
  unfold stepWithDraw
  rw [step_of_faulted (s := s.setDraws [d]) h]

/-- A STEP with a draw that moves is a step with the draw handed over, and the draws dropped after it. -/
theorem stepWithDraw_next {d : Byte} {s t : State} (h : stepWithDraw d s = .next t) :
    ∃ u, step (s.setDraws [d]) = .next u ∧ t = u.setDraws [] := by
  unfold stepWithDraw at h
  split at h
  next u hu => exact ⟨u, hu, (Host.Outcome.next.inj h).symm⟩
  all_goals cases h

/-- Only a Running CORE moves. -/
theorem whenRunning_next {s t : State} {o : Out} (h : whenRunning s o = .next t) : s.status = .running ∧ o = .next t := by
  unfold whenRunning at h
  split at h
  next hrun => exact ⟨hrun, h⟩
  next => cases h

/-- An operation but RESET that moves leaves the launch point behind. -/
theorem Session.after_next {o : Out} {u : Session} (h : Session.after o = .next u) :
    o = .next u.state ∧ u.atLaunch = false := by
  unfold Session.after at h
  split at h
  next s => obtain rfl := Host.Outcome.next.inj h; exact ⟨rfl, rfl⟩
  all_goals cases h

theorem Session.apply_load_of_running {image : List Byte} {t : Session} (h : t.state.status = .running) :
    t.apply (.load image) =
      Session.after (if t.atLaunch then load image t.state else .refused .loadNotAtLaunch) :=
  congrArg Session.after (whenRunning_of_running _ h)

/-! ## The invariant -/

theorem State.copyIn_inv {s : State} {image : List Byte} (hinv : s.Inv) (hlen : ¬ 3584 < image.length) :
    (s.copyIn Config.progBase image).Inv := by
  obtain ⟨m, hm⟩ := State.copyIn_eq image Config.progBase s
  have hw := State.copyIn_mem_wf image Config.progBase s hinv.1 (by simp only [Config.progBase]; omega)
  rw [hm] at hw ⊢
  exact ⟨hw, hinv.2⟩

theorem load_inv {image : List Byte} {s t : State} (hinv : s.Inv) (h : load image s = .next t) : t.Inv := by
  obtain ⟨hrun, -⟩ := whenRunning_next h
  rw [load_of_running hrun] at h
  obtain rfl := Host.Outcome.next.inj h
  split
  next => exact .of_faulted hinv.1 (by simp [rejectImage])
  next hlen => exact State.copyIn_inv hinv hlen

theorem stepWithDraw_inv {d : Byte} {s t : State} (hinv : s.Inv) (h : stepWithDraw d s = .next t) : t.Inv := by
  obtain ⟨u, hu, rfl⟩ := stepWithDraw_next h
  have hs : (s.setDraws [d]).Inv := hinv.congr rfl rfl rfl rfl rfl
  exact (everyStepKeepsTheInvariant _ u hs hu).congr rfl rfl rfl rfl rfl

/-- Settles O20: STEP by its own statement, LOAD by the bytes it copies; the others leave what the invariant reads. -/
theorem everyHostOperationKeepsTheInvariant : Obligations.EveryHostOperationKeepsTheInvariant := by
  intro op t u hinv h
  cases op with
  | reset =>
    obtain rfl := Host.Outcome.next.inj h
    exact resetMeetsTheInvariant.congr rfl rfl rfl rfl rfl
  | load image =>
    obtain ⟨h, -⟩ := Session.after_next h
    obtain ⟨-, h⟩ := whenRunning_next h
    split at h
    next => exact load_inv hinv h
    next => cases h
  | step d => exact stepWithDraw_inv hinv (Session.after_next h).1
  | tick | setKey | clearRedraw =>
    obtain ⟨h, -⟩ := Session.after_next h
    obtain ⟨-, h⟩ := whenRunning_next h
    rw [← Host.Outcome.next.inj h]
    exact hinv.congr rfl rfl rfl rfl rfl

/-! ## The timers -/

theorem decay_toNat (b : Byte) : (decay b).toNat = b.toNat - 1 := by
  unfold decay
  split
  next h => rw [h]; rfl
  next h => bv_omega

/-- Settles O21: each timer is written with its decay. -/
theorem tickDecaysBothTimers : Obligations.TickDecaysBothTimers := by
  refine fun s => ⟨fun hrun => ?_, fun hnot t ht => hnot (whenRunning_next ht).1⟩
  exact ⟨_, tick_of_running hrun, decay_toNat s.dt, decay_toNat s.st, by simp [Frame]⟩

/-- After k ticks a Running CORE is Running, with ST down by k. -/
theorem run_ticks (k : Nat) {s : State} (b : Bool) (hrun : s.status = .running) :
    ∃ u, Session.run (List.replicate k .tick) ⟨s, b⟩ = .next u ∧ u.state.st.toNat = s.st.toNat - k := by
  induction k generalizing s b with
  | zero => exact ⟨_, rfl, rfl⟩
  | succ k ih =>
    obtain ⟨u, hu, hst⟩ := ih (s := (s.setDt (decay s.dt)).setSt (decay s.st)) false hrun
    refine ⟨u, ?_, ?_⟩
    · rw [List.replicate_succ, Session.run, Session.apply, tick_of_running hrun]
      exact hu
    · rw [hst, State.setSt_st, decay_toNat]
      omega

/-- Settles O58: the sound is active while ST is above 0, and ST starts at V[X]. -/
theorem soundLastsAsManyTicksAsWereSet : Obligations.SoundLastsAsManyTicksAsWereSet := by
  refine fun x s hrun => ⟨_, exec_ldStVx x s, fun k => ?_⟩
  obtain ⟨u, hu, hst⟩ := run_ticks k (s := s.setSt (s.reg x)) false hrun
  refine ⟨u, hu, ?_⟩
  have hactive : u.state.soundActive = true ↔ 0 < u.state.st.toNat := by
    unfold State.soundActive
    rw [bne_iff_ne]
    bv_omega
  rw [hactive, hst, State.setSt_st]
  omega

/-! ## RESET and LOAD -/

/-- The reset contents are GLYPH_DATA from 0x050 to 0x09F and 0 elsewhere (20_memory.md R37). -/
theorem resetByte_eq (a : Nat) :
    resetByte a = if 0x050 ≤ a ∧ a < 0x0A0 then glyphData.getD (a - 0x050) 0 else 0 := by
  have hlen : glyphData.length = 80 := rfl
  unfold resetByte Config.glyphBase
  by_cases hlo : a < 0x050
  · rw [if_pos hlo, if_neg (by omega)]
  · by_cases hhi : a < 0x0A0
    · rw [if_neg hlo, if_pos (by omega)]
    · rw [if_neg hlo, if_neg (by omega), List.getD_eq_default _ _ (by omega)]

theorem pixel_of_clear {s : State} (h : s.pix = Vector.replicate Config.screenH (Vector.replicate Config.screenW false))
    (row col : Nat) : s.pixel row col = false := by
  unfold State.pixel
  split
  next => simp [h]
  next => rfl

/-- Settles O23: RESET answers one state, and each of its fields is the literal of the rule. -/
theorem resetLeavesTheResetState : Obligations.ResetLeavesTheResetState := by
  intro t
  have hoff : ∀ row col, State.reset.pixel row col = false := pixel_of_clear rfl
  exact ⟨_, rfl, resetByte_eq, fun _ => Vector.getElem_replicate _, rfl, rfl, fun _ _ => Vector.getElem_replicate _, rfl, rfl,
    rfl, hoff, rfl, fun _ _ => Vector.getElem_replicate _, rfl⟩

/-- The launch of an image that fits copies it into the state after RESET. -/
theorem launch_eq {image : List Byte} (t : Session) (h : image.length ≤ 3584) :
    launch image t = .next ⟨(resetOp t.state).copyIn Config.progBase image, false⟩ := by
  have hload : load image (resetOp t.state) = .next ((resetOp t.state).copyIn Config.progBase image) := by
    rw [load_of_running rfl, if_neg (by omega)]
  have hrun : launch image t = Session.run [.load image] ⟨resetOp t.state, true⟩ := rfl
  rw [hrun, Session.run, Session.apply_load_of_running rfl, if_pos rfl, hload]
  rfl

/-- Settles O24: LOAD writes the image's bytes and no other field (`State.copyIn`), RESET the rest. -/
theorem launchPlacesTheImage : Obligations.LaunchPlacesTheImage := by
  intro image t hlen
  have hbyte := fun a => State.byteAt_copyIn image Config.progBase a (resetOp t.state)
  obtain ⟨m, hm⟩ := State.copyIn_eq image Config.progBase (resetOp t.state)
  rw [hm] at hbyte
  refine ⟨_, launch_eq t hlen, ?_⟩
  rw [hm]
  refine ⟨fun k hk => ?_, ?_, rfl, rfl⟩
  · simp [hbyte, hk]
  · refine ⟨fun _ _ => rfl, fun a ha => ?_, by simp [resetOp]⟩
    rw [hbyte, dif_neg (of_decide_eq_false ha)]
    rfl

/-- Settles O25: the check stands before any write, and the rejection puts memory back as it was. -/
theorem oversizedImageIsRejected : Obligations.OversizedImageIsRejected := by
  intro image s hrun hlen
  refine ⟨rejectImage image.length s, ?_, rfl, fun a => rfl⟩
  rw [load_of_running hrun, if_pos hlen]

/-- Settles O26: every operation but RESET goes through the check of the status. -/
theorem faultedCoreDoesNotMoveUntilReset : Obligations.FaultedCoreDoesNotMoveUntilReset := by
  intro t k info origin h
  refine ⟨fun op hop => ?_, _, rfl, rfl⟩
  cases op with
  | reset => exact absurd rfl hop
  | step d => exact congrArg Session.after (stepWithDraw_of_faulted h)
  | load | tick | setKey | clearRedraw => exact congrArg Session.after (whenRunning_of_faulted _ h)

/-- Settles O27: every operation but RESET leaves the launch point. -/
theorem loadIsRefusedAfterTheLaunch : Obligations.LoadIsRefusedAfterTheLaunch := by
  intro op t u image hop h hrun
  have hpast : u.atLaunch = false := by
    cases op with
    | reset => exact absurd rfl hop
    | load | step | tick | setKey | clearRedraw => exact (Session.after_next h).2
  rw [Session.apply_load_of_running hrun, hpast]
  rfl

end Sys2Proof.Machine
end

section
/-! The display statements (41_display.md). DXYN where its bytes are in memory draws one part, the sprite, on the state with VF
cleared (`Drawn`, Laws/Ops.lean); what it leaves of pixels and VF is that part's. -/

namespace Sys2Proof.Machine

/-- Settles O28: the buffer is written once, with every pixel off. -/
theorem clearScreenTurnsEveryPixelOff : Obligations.ClearScreenTurnsEveryPixelOff := fun s =>
  ⟨_, exec_cls s, pixel_of_clear rfl, rfl, by simp [Frame]⟩

/-- DXYN where its bytes are in memory. -/
theorem exec_drw_drawn {x y n : Nibble} {s : State} (h : n = 0 ∨ s.effAddr n.toNat ≤ 4096) :
    ∃ u, exec (.drw x y n) s = .next (u.setRedraw true) ∧ Drawn (spritePixel s x y n) (s.setReg vf 0) u := by
  obtain ⟨u, hu, hd⟩ := drawSprite_ok (x := x) (y := y) h
  exact ⟨u, by rw [exec_drw, hu, finish_ok], hd⟩

/-- Settles O29: the sprite is one part, drawn on the state with VF cleared, which has the same pixels. -/
theorem drawXorsTheClippedSprite : Obligations.DrawXorsTheClippedSprite := by
  intro x y n s h
  obtain ⟨u, hu, hd⟩ := exec_drw_drawn (x := x) (y := y) h
  exact ⟨_, hu, hd.pixel, rfl, frame_drawn hd⟩

/-- Settles O30: VF starts at 0, and the sprite leaves it at 1 where a bit meets a pixel that is on. -/
theorem drawReportsCollisions : Obligations.DrawReportsCollisions := by
  intro x y n s h
  obtain ⟨u, hu, hd⟩ := exec_drw_drawn (x := x) (y := y) h
  exact ⟨_, hu, hd.hit, fun hmiss => (hd.miss hmiss).trans (State.reg_setReg_self s vf 0)⟩

/-- Settles O31: no pixel is on, so none is met. -/
theorem drawAfterClearReportsNoCollision : Obligations.DrawAfterClearReportsNoCollision := by
  intro x y n s t h ht
  obtain rfl := Host.Outcome.next.inj ht
  obtain ⟨u, hu, -, hmiss⟩ := drawReportsCollisions x y n (s.clearScreen.setRedraw true) h
  exact ⟨u, hu, hmiss fun row col _ _ _ => pixel_of_clear rfl row col⟩

/-- A pixel buffer is its pixels. -/
theorem pix_ext {s t : State} (h : ∀ row col, row < 32 → col < 64 → t.pixel row col = s.pixel row col) : t.pix = s.pix := by
  refine Vector.ext fun row hrow => Vector.ext fun col hcol => ?_
  have hp := h row col hrow hcol
  unfold State.pixel at hp
  rwa [dif_pos ⟨hrow, hcol⟩, dif_pos ⟨hrow, hcol⟩] at hp

/-- The sprite reads V[X], V[Y], I and memory only. -/
theorem spritePixel_congr {x y : Nibble} {s t : State} (n : Nibble) (hx : t.reg x = s.reg x) (hy : t.reg y = s.reg y)
    (hi : t.i = s.i) (hmem : ∀ a, t.byteAt a = s.byteAt a) : spritePixel t x y n = spritePixel s x y n := by
  funext row col
  simp only [spritePixel, State.effAddr, hx, hy, hi, hmem]

/-- Settles O32: the first draw leaves all that the sprite is made from, and XOR with one sprite twice is the pixel before. -/
theorem drawingTwiceRestoresTheScreen : Obligations.DrawingTwiceRestoresTheScreen := by
  intro x y n s t hx hy h ht
  obtain ⟨t', ht', hpixel, -, hregs, hmem, hi, -⟩ := drawXorsTheClippedSprite x y n s h
  obtain rfl := Host.Outcome.next.inj (ht.symm.trans ht')
  have hsprite : spritePixel t x y n = spritePixel s x y n :=
    spritePixel_congr n (hregs x (beq_eq_false_iff_ne.mpr hx)) (hregs y (beq_eq_false_iff_ne.mpr hy)) (hi rfl)
      fun a => hmem a rfl
  have h' : n = 0 ∨ t.effAddr n.toNat ≤ 4096 := by
    unfold State.effAddr at h ⊢
    rwa [hi rfl]
  obtain ⟨u, hu, hpixel', -⟩ := drawXorsTheClippedSprite x y n t h'
  refine ⟨u, hu, pix_ext fun row col hrow hcol => ?_⟩
  rw [hpixel' row col hrow hcol, hpixel row col hrow hcol, hsprite, Bool.xor_assoc, Bool.xor_self, Bool.xor_false]

end Sys2Proof.Machine
end

section
/-! The call stack, the fixed points of STEP and the key skips (42_control_flow.md, 45_keypad_timers.md). -/

namespace Sys2Proof.Machine

theorem exec_ret (s : State) : exec .ret s = finish s (popPc s) := rfl

/-- 2NNN with a free slot. -/
theorem exec_call_of_free {nnn : Addr} {s : State} (h : s.sp.val < 16) :
    exec (.call nnn) s =
      .next (((s.setStack (s.stack.set s.sp.val s.pc h)).setSp ⟨s.sp.val + 1, Nat.succ_lt_succ h⟩).setPc (zextAddr nnn)) := by
  simp only [exec, execCall, pushPc_ok h, finish_ok]

/-- Settles O33: the popped slot is the one below SP. -/
theorem returnPopsTheLastAddress : Obligations.ReturnPopsTheLastAddress := by
  intro s hsp
  obtain ⟨k, hk⟩ : ∃ k, s.sp.val = k + 1 := Nat.exists_eq_succ_of_ne_zero fun h0 => hsp (Fin.ext h0)
  have hlt : k < 16 := by have := s.sp_le; omega
  refine ⟨_, by rw [exec_ret, popPc_ok hlt hk.symm, finish_ok], fun j hj hjsp => ?_, hk.symm, by simp [Frame]⟩
  obtain rfl : j = k := by omega
  rfl

/-- Settles O34: the slot written is the one at SP. -/
theorem callPushesTheAdvancedPc : Obligations.CallPushesTheAdvancedPc := by
  intro nnn s hfree
  refine ⟨_, exec_call_of_free hfree, fun k hk => ?_, rfl, zextAddr_toNat nnn, by simp [Frame]⟩
  simp [Vector.getElem_set, eq_comm]

/-- Settles O38: the slot that the call pushed is the one that the return pops. -/
theorem returnResumesAfterTheCall : Obligations.ReturnResumesAfterTheCall := by
  intro nnn s t t' hfree ht hstack hsp
  obtain ⟨c, hc, hslots, hdepth, -⟩ := callPushesTheAdvancedPc nnn s hfree
  obtain rfl := Host.Outcome.next.inj (ht.symm.trans hc)
  have hdepth' : t'.sp.val = s.sp.val + 1 := by rw [hsp, hdepth]
  obtain ⟨u, hu, hpc, hpop, -⟩ := returnPopsTheLastAddress t' fun h0 => by simp [h0] at hdepth'
  refine ⟨u, hu, ?_, Fin.ext (by omega)⟩
  rw [hpc s.sp.val hfree hdepth'.symm]
  simp only [hstack, hslots s.sp.val hfree, if_pos]

theorem State.setPc_advance_self (s : State) : s.advance.setPc s.pc = s := rfl

/-- Settles O39: the jump writes PC back to the address it was fetched from. -/
theorem jumpToItselfIsAFixedPoint : Obligations.JumpToItselfIsAFixedPoint := by
  intro nnn s hat hself
  have hpc : zextAddr nnn = s.pc := BitVec.eq_of_toNat_eq ((zextAddr_toNat nnn).trans hself)
  rw [(step_of_instr hat).1, exec_jp, hpc, State.setPc_advance_self]

/-- Settles O60: FX0A takes PC back by the 2 that the step advanced it. -/
theorem waitingStepReturnsToTheSameState : Obligations.WaitingStepReturnsToTheSameState := by
  intro x s hat hup
  have hnone : s.advance.firstKey = none := State.firstKey_eq_none hup
  rw [(step_of_instr hat).1, exec_ldVxK_of_none hnone, State.advance_pc_sub, State.setPc_advance_self]

theorem exec_skp {x : Nibble} {s : State} (h : (s.reg x).toNat < 16) :
    exec (.skp x) s = .next (s.skipIf (s.key[(s.reg x).toNat] == true)) := by
  simp only [exec, execSkp, skipOnKey_ok h, finish_ok]

theorem exec_sknp {x : Nibble} {s : State} (h : (s.reg x).toNat < 16) :
    exec (.sknp x) s = .next (s.skipIf (s.key[(s.reg x).toNat] == false)) := by
  simp only [exec, execSknp, skipOnKey_ok h, finish_ok]

/-- Settles O56: each is a conditional skip, on the key down or up. -/
theorem keySkipsFollowTheKey : Obligations.KeySkipsFollowTheKey := fun _ _ h =>
  ⟨completes_of_skipIf (exec_skp h) beq_iff_eq, completes_of_skipIf (exec_sknp h) beq_iff_eq⟩

end Sys2Proof.Machine
end

section
/-! The arithmetic statements (43_register_alu.md R78 to R91). Two-register instructions write V[X] and VF in the order of their
rule; when X is F the second write is the one that stays (R91). -/

namespace Sys2Proof.Machine

/-! ## What the instructions execute -/

theorem exec_addVxNn (x : Nibble) (nn : Byte) (s : State) : exec (.addVxNn x nn) s = .next (s.setReg x (s.reg x + nn)) := rfl

theorem exec_orVxVy (x y : Nibble) (s : State) : exec (.orVxVy x y) s = .next (s.setReg x (s.reg x ||| s.reg y)) := rfl

theorem exec_andVxVy (x y : Nibble) (s : State) : exec (.andVxVy x y) s = .next (s.setReg x (s.reg x &&& s.reg y)) := rfl

theorem exec_xorVxVy (x y : Nibble) (s : State) : exec (.xorVxVy x y) s = .next (s.setReg x (s.reg x ^^^ s.reg y)) := rfl

theorem exec_addVxVy (x y : Nibble) (s : State) :
    exec (.addVxVy x y) s = .next ((s.setReg x (s.reg x + s.reg y)).setReg vf (carryFlag (s.reg x) (s.reg y))) := rfl

theorem exec_subVxVy (x y : Nibble) (s : State) :
    exec (.subVxVy x y) s = .next (flagThenReg x (noBorrowFlag (s.reg x) (s.reg y)) (fun t => t.reg x - t.reg y) s) := rfl

theorem exec_shrVx (x y : Nibble) (s : State) :
    exec (.shrVx x y) s = .next (flagThenReg x (shiftRightFlag (s.reg x)) (fun t => t.reg x >>> 1) s) := rfl

theorem exec_subnVxVy (x y : Nibble) (s : State) :
    exec (.subnVxVy x y) s = .next (flagThenReg x (noBorrowFlag (s.reg y) (s.reg x)) (fun t => t.reg y - t.reg x) s) := rfl

theorem exec_shlVx (x y : Nibble) (s : State) :
    exec (.shlVx x y) s = .next (flagThenReg x (shiftLeftFlag (s.reg x)) (fun t => t.reg x <<< 1) s) := rfl

theorem exec_addIVx (x : Nibble) (s : State) : exec (.addIVx x) s = .next (s.setI (s.i + zextByte (s.reg x))) := rfl

/-! ## One write -/

/-- Settles O41: one register write, of the sum. -/
theorem addImmediateWrapsWithoutFlag : Obligations.AddImmediateWrapsWithoutFlag := fun x nn s =>
  completes_of_setReg (post := (·.toNat = _)) (exec_addVxNn x nn s) (BitVec.toNat_add _ _)

/-- Settles O42: one register write each, of the bitwise operation. -/
theorem logicWorksBitByBit : Obligations.LogicWorksBitByBit := fun x y s =>
  ⟨completes_of_setReg (post := fun b => ∀ k, b.getLsbD k = ((s.reg x).getLsbD k || (s.reg y).getLsbD k))
    (exec_orVxVy x y s) fun _ => BitVec.getLsbD_or,
   completes_of_setReg (post := fun b => ∀ k, b.getLsbD k = ((s.reg x).getLsbD k && (s.reg y).getLsbD k))
    (exec_andVxVy x y s) fun _ => BitVec.getLsbD_and,
   completes_of_setReg (post := fun b => ∀ k, b.getLsbD k = ((s.reg x).getLsbD k ^^ (s.reg y).getLsbD k))
    (exec_xorVxVy x y s) fun _ => BitVec.getLsbD_xor⟩

/-- Settles O50: one write of I, of the sum. -/
theorem addToIndexWrapsAtSixteenBits : Obligations.AddToIndexWrapsAtSixteenBits := fun x s =>
  completes_of_setI (post := (·.toNat = _)) (exec_addIVx x s) (by rw [BitVec.toNat_add, zextByte_toNat])

/-! ## The flags as numbers -/

theorem boolByte_toNat (c : Bool) : (boolByte c).toNat = if c then 1 else 0 := by cases c <;> rfl

theorem boolByte_decide (p : Prop) [Decidable p] : boolByte (decide p) = if p then 1 else 0 := by
  simp [boolByte]

theorem shiftRightFlag_toNat (p : Byte) : (shiftRightFlag p).toNat = p.toNat % 2 := by
  unfold shiftRightFlag
  rw [BitVec.toNat_and]
  exact Nat.and_one_is_mod _

theorem shiftLeftFlag_toNat (p : Byte) : (shiftLeftFlag p).toNat = p.toNat / 128 := by
  have hp := p.isLt
  unfold shiftLeftFlag
  rw [boolByte_toNat, BitVec.getLsbD, Nat.testBit_eq_decide_div_mod_eq]
  simp only [decide_eq_true_eq]
  split <;> omega

theorem shr_toNat (p : Byte) : (p >>> 1).toNat = p.toNat / 2 := by
  rw [BitVec.toNat_ushiftRight, Nat.shiftRight_eq_div_pow]

theorem shl_toNat (p : Byte) : (p <<< 1).toNat = p.toNat * 2 % 256 := by
  rw [BitVec.toNat_shiftLeft, Nat.shiftLeft_eq]

theorem sub_toNat (p q : Byte) : (p - q).toNat = (p.toNat + 256 - q.toNat) % 256 := by
  have hq := q.isLt
  rw [BitVec.toNat_sub]
  omega

/-! ## Flag and result -/

/-- 8XY4: V[X] first, then VF. -/
theorem addVxVy_completes (x y : Nibble) (s : State) :
    Completes (.addVxVy x y) s fun t =>
      (x ≠ vf → t.reg x = s.reg x + s.reg y) ∧ t.reg vf = carryFlag (s.reg x) (s.reg y) ∧
      Frame { regs := fun r => r == x || r == vf } s t := by
  refine ⟨_, exec_addVxVy x y s, fun hx => ?_, State.reg_setReg_self _ _ _, frame_setReg_vf s x _ _⟩
  rw [State.reg_setReg_of_ne _ _ _ _ hx, State.reg_setReg_self]

/-- An instruction that writes VF and then V[X]. -/
theorem completes_of_flagThenReg {i : Instr} {s : State} {x : Nibble} {flag : Byte} {value : State → Byte}
    (he : exec i s = .next (flagThenReg x flag value s)) :
    Completes i s fun t => t.reg x = value (s.setReg vf flag) ∧ (x ≠ vf → t.reg vf = flag) ∧
      Frame { regs := fun r => r == x || r == vf } s t := by
  refine ⟨_, he, State.reg_setReg_self _ _ _, fun hx => ?_, frame_flagThenReg s x flag value⟩
  unfold flagThenReg
  rw [State.reg_setReg_of_ne _ _ _ _ hx.symm, State.reg_setReg_self]

/-- Settles O43: VF is written last, so it is the carry for every X. -/
theorem addReportsTheCarry : Obligations.AddReportsTheCarry := by
  intro x y s
  obtain ⟨t, ht, hsum, hcarry, hframe⟩ := addVxVy_completes x y s
  refine ⟨t, ht, fun hx => ?_, hcarry.trans (boolByte_decide _), hframe⟩
  rw [hsum hx, BitVec.toNat_add]

/-- Settles O44: with X and Y not F the flag in VF does not reach the difference. -/
theorem subtractionsReportNoBorrow : Obligations.SubtractionsReportNoBorrow := by
  intro x y s hx hy
  constructor
  · obtain ⟨t, ht, hdiff, hflag, hframe⟩ := completes_of_flagThenReg (exec_subVxVy x y s)
    refine ⟨t, ht, ?_, (hflag hx).trans (boolByte_decide _), hframe⟩
    rw [hdiff, sub_toNat, State.reg_setReg_of_ne _ _ _ _ hx, State.reg_setReg_of_ne _ _ _ _ hy]
  · obtain ⟨t, ht, hdiff, hflag, hframe⟩ := completes_of_flagThenReg (exec_subnVxVy x y s)
    refine ⟨t, ht, ?_, (hflag hx).trans (boolByte_decide _), hframe⟩
    rw [hdiff, sub_toNat, State.reg_setReg_of_ne _ _ _ _ hx, State.reg_setReg_of_ne _ _ _ _ hy]

/-- Settles O45: with X not F the flag in VF does not reach the shift. -/
theorem shiftsReportTheBitShiftedOut : Obligations.ShiftsReportTheBitShiftedOut := by
  intro x y s hx
  constructor
  · obtain ⟨t, ht, hshift, hflag, hframe⟩ := completes_of_flagThenReg (exec_shrVx x y s)
    refine ⟨t, ht, ?_, by rw [hflag hx, shiftRightFlag_toNat], hframe⟩
    rw [hshift, shr_toNat, State.reg_setReg_of_ne _ _ _ _ hx]
  · obtain ⟨t, ht, hshift, hflag, hframe⟩ := completes_of_flagThenReg (exec_shlVx x y s)
    refine ⟨t, ht, ?_, by rw [hflag hx, shiftLeftFlag_toNat], hframe⟩
    rw [hshift, shl_toNat, State.reg_setReg_of_ne _ _ _ _ hx]

/-! ## VF as operand and destination -/

theorem carryFlag_toNat (p q : Byte) : (carryFlag p q).toNat = if decide (255 < p.toNat + q.toNat) then 1 else 0 :=
  boolByte_toNat _

theorem noBorrowFlag_toNat (p q : Byte) : (noBorrowFlag p q).toNat = if decide (q.toNat ≤ p.toNat) then 1 else 0 :=
  boolByte_toNat _

/-- With X = F the two registers written are one. -/
theorem frame_vf_of_both {s t : State} (h : Frame { regs := fun r => r == vf || r == vf } s t) :
    Frame { regs := fun r => r == vf } s t := by
  simpa only [Bool.or_self] using h

/-- With X = F the flag is written over by the value, which was computed with the flag in VF. -/
theorem completes_of_flagThenReg_vf {i : Instr} {s : State} {flag : Byte} {value : State → Byte} {n : Nat}
    (he : exec i s = .next (flagThenReg vf flag value s)) (hn : (value (s.setReg vf flag)).toNat = n) :
    Completes i s fun t => (t.reg vf).toNat = n ∧ Frame { regs := fun r => r == vf } s t := by
  obtain ⟨t, ht, hvalue, -, hframe⟩ := completes_of_flagThenReg he
  exact ⟨t, ht, by rw [hvalue, hn], frame_vf_of_both hframe⟩

/-- With X other than F both writes stay. -/
theorem completes_of_flagThenReg_both {i : Instr} {s : State} {x : Nibble} {flag : Byte} {value : State → Byte} {f n : Nat}
    (he : exec i s = .next (flagThenReg x flag value s)) (hx : x ≠ vf) (hf : flag.toNat = f)
    (hn : (value (s.setReg vf flag)).toNat = n) :
    Completes i s fun t => (t.reg vf).toNat = f ∧ (t.reg x).toNat = n ∧ Frame { regs := fun r => r == x || r == vf } s t := by
  obtain ⟨t, ht, hvalue, hflag, hframe⟩ := completes_of_flagThenReg he
  exact ⟨t, ht, by rw [hflag hx, hf], by rw [hvalue, hn], hframe⟩

/-- Settles O46: row by row of the table. -/
theorem flagRegisterAsOperand : Obligations.FlagRegisterAsOperand := by
  intro x y s hx hy o vx vy bit onlyVf both
  have hvfx := fun b => State.reg_setReg_of_ne s vf x b hx
  have hvfy := fun b => State.reg_setReg_of_ne s vf y b hy
  have ho : o < 256 := (s.reg vf).isLt
  have addVf (y' : Nibble) : Completes (.addVxVy vf y') s fun t => onlyVf t (bit (255 < o + (s.reg y').toNat)) := by
    obtain ⟨t, ht, -, hcarry, hframe⟩ := addVxVy_completes vf y' s
    exact ⟨t, ht, by rw [hcarry, carryFlag_toNat], frame_vf_of_both hframe⟩
  have shrVf (y' : Nibble) : Completes (.shrVx vf y') s fun t => onlyVf t 0 := by
    refine completes_of_flagThenReg_vf (exec_shrVx vf y' s) ?_
    rw [State.reg_setReg_self, shr_toNat, shiftRightFlag_toNat]
    omega
  have shlVf (y' : Nibble) : Completes (.shlVx vf y') s fun t => onlyVf t (2 * (o / 128)) := by
    refine completes_of_flagThenReg_vf (exec_shlVx vf y' s) ?_
    rw [State.reg_setReg_self, shl_toNat, shiftLeftFlag_toNat]
    omega
  refine ⟨addVf y, ?_, ?_, ?_, ?_, ?_, shrVf y, shrVf vf, ?_, ?_, ?_, shlVf y, shlVf vf⟩
  · obtain ⟨t, ht, hsum, hcarry, hframe⟩ := addVxVy_completes x vf s
    exact ⟨t, ht, by rw [hcarry, carryFlag_toNat], by rw [hsum hx, BitVec.toNat_add], hframe⟩
  · have hbit : bit (255 < o + o) = bit (128 ≤ o) := congrArg bit (decide_eq_decide.mpr (by omega))
    exact hbit ▸ addVf vf
  · exact completes_of_flagThenReg_vf (exec_subVxVy vf y s) (by
      rw [State.reg_setReg_self, hvfy, sub_toNat, noBorrowFlag_toNat]; rfl)
  · exact completes_of_flagThenReg_both (exec_subVxVy x vf s) hx (noBorrowFlag_toNat _ _) (by
      rw [State.reg_setReg_self, hvfx, sub_toNat, noBorrowFlag_toNat]; rfl)
  · exact completes_of_flagThenReg_vf (exec_subVxVy vf vf s) (by rw [BitVec.sub_self]; rfl)
  · exact completes_of_flagThenReg_vf (exec_subnVxVy vf y s) (by
      rw [State.reg_setReg_self, hvfy, sub_toNat, noBorrowFlag_toNat]; rfl)
  · exact completes_of_flagThenReg_both (exec_subnVxVy x vf s) hx (noBorrowFlag_toNat _ _) (by
      rw [State.reg_setReg_self, hvfx, sub_toNat, noBorrowFlag_toNat]; rfl)
  · exact completes_of_flagThenReg_vf (exec_subnVxVy vf vf s) (by rw [BitVec.sub_self]; rfl)

/-! ## The document's first property -/

/-- Settles O48: both loads stay where X is neither Y nor F; else the values 0 and 1 fail, V[X] ending as 2 or as the carry. -/
theorem loadLoadAddGivesSumAndCarry : Obligations.LoadLoadAddGivesSumAndCarry := by
  intro x y
  constructor
  · intro h
    obtain ⟨t, ht, u, hu, w, hw, hsum, -⟩ := h 0 1 State.reset
    obtain rfl := Host.Outcome.next.inj ht
    obtain rfl := Host.Outcome.next.inj hu
    obtain ⟨w', hw', hadd, hcarry, -⟩ := addVxVy_completes x y ((State.reset.setReg x 0).setReg y 1)
    obtain rfl := Host.Outcome.next.inj (hw'.symm.trans hw)
    have hx : x ≠ vf := by
      rintro rfl
      rw [hcarry, State.reg_setReg_self, State.reg_setReg] at hsum
      split at hsum
      next => exact absurd hsum (by decide)
      next => rw [State.reg_setReg_self] at hsum; exact absurd hsum (by decide)
    refine ⟨?_, hx⟩
    rintro rfl
    rw [hadd hx, State.reg_setReg_self] at hsum
    exact absurd hsum (by decide)
  · rintro ⟨hxy, hx⟩ a b s
    refine ⟨_, exec_ldVxNn x a s, _, exec_ldVxNn y b _, ?_⟩
    obtain ⟨w, hw, hsum, hcarry, -⟩ := addReportsTheCarry x y ((s.setReg x a).setReg y b)
    rw [State.reg_setReg_of_ne _ _ _ _ hxy, State.reg_setReg_self, State.reg_setReg_self] at hsum hcarry
    refine ⟨w, hw, hsum hx, ?_⟩
    rw [hcarry]
    split <;> simp_all

end Sys2Proof.Machine
end

section
/-! The random draw (43_register_alu.md R90, 60_exceptions.md R123). A step that runs no CXNN commutes with handing bytes over
(Laws/Draws.lean), so the byte of its STEP makes no difference. -/

namespace Sys2Proof.Machine

theorem exec_rnd (x : Nibble) (nn : Byte) (s : State) :
    exec (.rnd x nn) s = .next (s.dropDraw.setReg x (s.nextDraw &&& nn)) := rfl

theorem State.dropDraw_of_cons {s : State} {d : Byte} {l : List Byte} (h : s.draws = d :: l) : s.dropDraw = s.setDraws l := by
  unfold State.dropDraw
  rw [h]

theorem State.nextDraw_of_cons {s : State} {d : Byte} {l : List Byte} (h : s.draws = d :: l) : s.nextDraw = d := by
  unfold State.nextDraw
  rw [h]

theorem exec_rnd_of_cons (x : Nibble) (nn : Byte) {s : State} {d : Byte} {l : List Byte} (h : s.draws = d :: l) :
    exec (.rnd x nn) s = .next ((s.setDraws l).setReg x (d &&& nn)) := by
  rw [exec_rnd, State.dropDraw_of_cons h, State.nextDraw_of_cons h]

/-- A step that runs no CXNN neither reads nor changes the bytes handed over. -/
theorem step_setDraws {s : State} (h : ∀ x nn, ¬ s.AtInstr (.rnd x nn)) (l : List Byte) :
    step (s.setDraws l) = Out.mapNext (·.setDraws l) (step s) := by
  cases hrun : s.status with
  | faulted k n a => rw [step_of_faulted hrun, step_of_faulted (s := s.setDraws l) hrun]; rfl
  | running =>
    by_cases hpc : 4096 ≤ s.pc.toNat + 1
    · rw [(step_of_fetchFault hrun hpc).1, (step_of_fetchFault (s := s.setDraws l) hrun hpc).1]; rfl
    have hpc' : s.pc.toNat + 1 < 4096 := by omega
    cases hd : decode s.wordAtPc with
    | none => rw [(step_of_unknown hrun hpc' hd).1, (step_of_unknown (s := s.setDraws l) hrun hpc' hd).1]; rfl
    | some i =>
      have hkind : i.kind ≠ .rnd := fun hk => by
        cases i <;> cases hk
        exact h _ _ ⟨hrun, hpc', hd⟩
      have hat : s.AtInstr i := ⟨hrun, hpc', hd⟩
      rw [(step_of_instr hat).1, (step_of_instr (s := s.setDraws l) hat).1]
      exact exec_setDraws hkind s.advance l

/-- A STEP that runs no CXNN is the step, whatever byte the host sent with it. -/
theorem stepWithDraw_of_no_rnd {s : State} (h : ∀ x nn, ¬ s.AtInstr (.rnd x nn)) (d : Byte) :
    stepWithDraw d s = Out.mapNext (·.setDraws []) (step s) := by
  unfold stepWithDraw
  rw [step_setDraws h]
  cases step s <;> rfl

/-- A STEP that runs a CXNN gives it the byte that the host sent. -/
theorem stepWithDraw_of_rnd {x : Nibble} {nn : Byte} {s : State} (h : s.AtInstr (.rnd x nn)) (d : Byte) :
    stepWithDraw d s = .next ((s.advance.setDraws []).setReg x (d &&& nn)) := by
  have hat : (s.setDraws [d]).AtInstr (.rnd x nn) := h
  rw [stepWithDraw_of_step ((step_of_instr hat).1.trans (exec_rnd_of_cons x nn rfl))]
  rfl

/-- Settles O47: the instruction by its one write, STEP by whether it runs a CXNN. -/
theorem randomIsTheDrawMasked : Obligations.RandomIsTheDrawMasked := by
  refine ⟨fun x nn s => ⟨?_, fun d l hl => ?_, ?_⟩, fun x nn d t hat => ?_, fun d e t hno => ?_, fun d t u h => ?_⟩
  · exact ⟨_, exec_rnd x nn s, State.reg_setReg_self _ _ _, exec_frame (i := .rnd x nn) rfl (exec_rnd x nn s)⟩
  · exact ⟨_, exec_rnd_of_cons x nn hl, State.reg_setReg_self _ _ _, rfl, rfl⟩
  · exact ⟨_, exec_rnd x 0 s, (State.reg_setReg_self _ _ _).trans BitVec.and_zero⟩
  · have hregs : ∀ r, (r == x) = false → ((t.state.advance.setDraws []).setReg x (d &&& nn)).reg r = t.state.reg r :=
      fun r hr => State.reg_setReg_of_ne _ _ _ _ (beq_eq_false_iff_ne.mp hr)
    exact ⟨_, congrArg Session.after (stepWithDraw_of_rnd hat d), State.reg_setReg_self _ _ _, rfl, rfl, hregs, by simp⟩
  · exact congrArg Session.after ((stepWithDraw_of_no_rnd hno d).trans (stepWithDraw_of_no_rnd hno e).symm)
  · exact stepWithDraw_draws (Session.after_next h).1

end Sys2Proof.Machine
end

section
/-! What FX55 stored, read back (44_index_memory.md R98, 20_memory.md R44): by FX65 as registers, by the fetch as a word. -/

namespace Sys2Proof.Machine

/-- What FX55 leaves where its addresses are in memory. -/
theorem ldMiVx_next {x : Nibble} {s t : State} (h : s.effAddr x.toNat < 4096) (ht : exec (.ldMiVx x) s = .next t) :
    (∀ k, k ≤ x.toNat → t.byteAt (s.effAddr k) = s.reg (regIndex k)) ∧ t.i = s.i := by
  obtain ⟨t', ht', hbytes, -, -, hi, -⟩ := ldMiVx_completes h
  obtain rfl := Host.Outcome.next.inj (ht.symm.trans ht')
  exact ⟨hbytes, hi rfl⟩

/-- Settles O54: with the same I, FX65 reads the addresses that FX55 wrote. -/
theorem storeThenLoadRestoresTheRegisters : Obligations.StoreThenLoadRestoresTheRegisters := by
  intro x s t t' h ht hi hbytes
  obtain ⟨hstored, hkept⟩ := ldMiVx_next h ht
  have haddr : ∀ k, t'.effAddr k = s.effAddr k := fun k => by unfold State.effAddr; rw [hi, hkept]
  obtain ⟨u, hu, hloaded, -⟩ := ldVxMi_completes (x := x) (s := t') (by rwa [haddr])
  refine ⟨u, hu, fun k hk => ?_⟩
  rw [hloaded k hk, haddr, hbytes k hk, hstored k hk]

/-- Settles O55: the fetch reads memory as it is. -/
theorem storedBytesAreFetched : Obligations.StoredBytesAreFetched := by
  intro x s t k h hk ht
  obtain ⟨hstored, -⟩ := ldMiVx_next h ht
  have hlt : s.effAddr k < s.effAddr x.toNat := effAddr_lt_effAddr.mpr hk
  have hpc : (BitVec.ofNat 16 (s.effAddr k)).toNat = s.effAddr k := by rw [BitVec.toNat_ofNat]; omega
  rw [fetch_ok (by rw [State.setPc_pc, hpc]; omega)]
  unfold State.wordAtPc
  rw [State.setPc_pc, hpc, State.byteAt_setPc, State.byteAt_setPc, hstored k (by omega)]
  exact congrArg (fun b => Except.ok (wordOfBytes _ b)) (hstored (k + 1) hk)

end Sys2Proof.Machine
end
